-- ==== Sys2Proof/Word.lean ====
section
/-! DEFINITION. The words of the machine (10_state.md R11, R13, R16; 00_scope.md R6): every value is an unsigned bit
vector, and a register or key is named by an index of 16. -/

namespace Sys2Proof

/-- A memory byte, a general register, a timer (R11, R17, R40). -/
abbrev Byte := BitVec 8

/-- The 16-bit word: an instruction, `pc`, `I`, a stack entry, `HALT_INFO` (R13, R16, R18, R20, R61). -/
abbrev Word := BitVec 16

/-- Four bits of an instruction word, one hexadecimal digit of a pattern (R6). -/
abbrev Nibble := BitVec 4

/-- The field `nnn`: a 12-bit absolute address (R62). -/
abbrev Addr12 := BitVec 12

/-- The name of a general register, `V0` to `VF` (R11). -/
abbrev Reg := Fin 16

/-- The name of a key, 0 to 15 (R21). -/
abbrev Key := Fin 16

/-- `V0`, the implicit operand of `Bnnn` (R104). -/
abbrev V0 : Reg := 0

/-- `VF`, register 15, the flag destination (R15). -/
abbrev VF : Reg := 15

end Sys2Proof
end

