-- ==== Sys2Proof/Config.lean ====
section
/-! DEFINITION. What the document fixes for every implementation (00_scope.md R4) and the one free value, the random
byte source (R5, R23). The other parameters, `PC_BITS`, `STACK_DEPTH` and `FONT`, stand in Machine/Params.lean. -/

namespace Sys2Proof

/-- The number of bytes of `MEM`, addresses 0x000 to 0xFFF (R4, R40). -/
def Config.memSize : Nat := 0x1000

/-- Where a program image is loaded and where execution starts (R4, R45). -/
def Config.programStart : Nat := 0x200

/-- FREE VALUE (log entry 2). The random byte the host supplies to the `k`-th execution of `Cxnn`: no law binds it, so a
theorem that mentions it holds for every byte source (R23, R132, R218, decision D11). -/
opaque Config.rnd : Nat → Byte

end Sys2Proof
end

