-- ==== Sys2Proof/Machine/Params.lean ====
section
/-! DEFINITION. The parameters whose values the document does not give (00_scope.md R5): `PC_BITS`, `STACK_DEPTH` and
`FONT`. They are one record, carried in the state and written by nothing, so that a claim about an instruction, a step or a
run speaks of every choice of them (log entry 24); `Params.default` holds the spec's defaults. The other rows of R5 are no
values of a run: `RND` is the free value of Config.lean, `END_OF_RUN` a predicate of Safety.lean, and the two rates are
every interleaving of events (Machine/Events.lean). -/

namespace Sys2Proof.Machine

/-- The parameters. What the spec fixes about each is fixed by the shape of the record: `PC_BITS` is at least 13
(93_implementation_defined.md U11), and `FONT` has 80 bytes with glyph A in its place (U10). -/
structure Params where
  /-- How many bits `PC_BITS` has beyond 13, the fewest that hold every `pc` a rule computes (decision D2, log entry 5). -/
  pcBitsBeyond13 : Nat
  /-- `STACK_DEPTH` (10_state.md R18, decision D4, log entry 3). -/
  stackDepth : Nat
  /-- `FONT[0..49]`: the glyphs 0 to 9 (20_memory.md R46, decision D10, log entry 4). -/
  fontDigits : Vector Byte 50
  /-- `FONT[55..79]`: the glyphs B to F. -/
  fontLetters : Vector Byte 25
deriving DecidableEq, Repr

/-- `PC_BITS`, the width of `pc` (R5, R13). -/
def Params.pcBits (p : Params) : Nat := 13 + p.pcBitsBeyond13

/-- `FONT[50..54]`: glyph A, the one glyph the document gives (20_memory.md R46). -/
def glyphA : List Byte := [0xF0, 0x90, 0xF0, 0x90, 0x90]

/-- `FONT[0..79]`, one glyph after the other: glyph `g` at `5g` to `5g + 4`, top row first (20_memory.md R45, R46). -/
def Params.font (p : Params) : List Byte := p.fontDigits.toList ++ glyphA ++ p.fontLetters.toList

/-- A 16-bit sum as `pc` holds it, its low `PC_BITS` bits (R13). In no run does the cut change a value (R14). -/
def Params.cutPc (p : Params) (w : Word) : Word := BitVec.ofNat 16 (w.toNat % 2 ^ p.pcBits)

/-! ### The defaults -/

/-- PRESUMED (log entry 4): the customary glyphs 0 to 4, one a line. -/
def defaultGlyphs0to4 : List Byte :=
  [0xF0, 0x90, 0x90, 0x90, 0xF0]
  ++ [0x20, 0x60, 0x20, 0x20, 0x70]
  ++ [0xF0, 0x10, 0xF0, 0x80, 0xF0]
  ++ [0xF0, 0x10, 0xF0, 0x10, 0xF0]
  ++ [0x90, 0x90, 0xF0, 0x10, 0x10]

/-- PRESUMED (log entry 4): the customary glyphs 5 to 9. -/
def defaultGlyphs5to9 : List Byte :=
  [0xF0, 0x80, 0xF0, 0x10, 0xF0]
  ++ [0xF0, 0x80, 0xF0, 0x90, 0xF0]
  ++ [0xF0, 0x10, 0x20, 0x40, 0x40]
  ++ [0xF0, 0x90, 0xF0, 0x90, 0xF0]
  ++ [0xF0, 0x90, 0xF0, 0x10, 0xF0]

/-- PRESUMED (log entry 4): the customary glyphs B to F. -/
def defaultGlyphsBtoF : List Byte :=
  [0xE0, 0x90, 0xE0, 0x90, 0xE0]
  ++ [0xF0, 0x80, 0x80, 0x80, 0xF0]
  ++ [0xE0, 0x90, 0x90, 0x90, 0xE0]
  ++ [0xF0, 0x80, 0xF0, 0x80, 0xF0]
  ++ [0xF0, 0x80, 0xF0, 0x80, 0x80]

/-- The spec's defaults: `PC_BITS` 16, `STACK_DEPTH` 16, the customary font (decisions D2, D4, D10, log entries 3 to 5). -/
def Params.default : Params where
  pcBitsBeyond13 := 3
  stackDepth := 16
  fontDigits := ⟨(defaultGlyphs0to4 ++ defaultGlyphs5to9).toArray, rfl⟩
  fontLetters := ⟨defaultGlyphsBtoF.toArray, rfl⟩

end Sys2Proof.Machine
end

