-- ==== Sys2Proof/Syntax.lean ====
section
/-! DEFINITION. The instruction set: one constructor per row of the opcode map (30_encoding.md R63), in the table's
order. The types carry the operands' ranges: every value of a field is legal in every instruction that has it (R62). -/

namespace Sys2Proof

/-- The 34 instructions. Each constructor names its pattern and the rule that gives its meaning. -/
inductive Instr where
  /-- `00E0`, CLS (R150). -/
  | cls
  /-- `00EE`, RET (R101). -/
  | ret
  /-- `1nnn`, JP nnn (R102). -/
  | jp (nnn : Addr12)
  /-- `2nnn`, CALL nnn (R103). -/
  | call (nnn : Addr12)
  /-- `3xnn`, SE Vx, nn (R105). -/
  | seImm (x : Reg) (nn : Byte)
  /-- `4xnn`, SNE Vx, nn (R106). -/
  | sneImm (x : Reg) (nn : Byte)
  /-- `5xy0`, SE Vx, Vy (R107). -/
  | seReg (x y : Reg)
  /-- `6xnn`, LD Vx, nn (R120). -/
  | ldImm (x : Reg) (nn : Byte)
  /-- `7xnn`, ADD Vx, nn (R121). -/
  | addImm (x : Reg) (nn : Byte)
  /-- `8xy0`, LD Vx, Vy (R122). -/
  | ldReg (x y : Reg)
  /-- `8xy1`, OR Vx, Vy (R123). -/
  | orReg (x y : Reg)
  /-- `8xy2`, AND Vx, Vy (R124). -/
  | andReg (x y : Reg)
  /-- `8xy3`, XOR Vx, Vy (R125). -/
  | xorReg (x y : Reg)
  /-- `8xy4`, ADD Vx, Vy (R127). -/
  | addReg (x y : Reg)
  /-- `8xy5`, SUB Vx, Vy (R128). -/
  | sub (x y : Reg)
  /-- `8xy6`, SHR Vx, Vy (R129). -/
  | shr (x y : Reg)
  /-- `8xy7`, SUBY Vx, Vy (R130). -/
  | suby (x y : Reg)
  /-- `8xyE`, SHL Vx (R131): the field `y` is decoded and not used; it is kept so that no bit of the word is lost (DESIGN
  CHOICE, log entry 25). -/
  | shl (x y : Reg)
  /-- `9xy0`, SNE Vx, Vy (R108). -/
  | sneReg (x y : Reg)
  /-- `Annn`, LD I, nnn (R140). -/
  | ldI (nnn : Addr12)
  /-- `Bnnn`, JP V0, nnn (R104). -/
  | jpV0 (nnn : Addr12)
  /-- `Cxnn`, RND Vx, nn (R132). -/
  | rnd (x : Reg) (nn : Byte)
  /-- `Dxyn`, DRW Vx, Vy, n (R151). -/
  | drw (x y : Reg) (n : Nibble)
  /-- `Ex9E`, SKP Vx (R163). -/
  | skp (x : Reg)
  /-- `ExA1`, SKNP Vx (R165). -/
  | sknp (x : Reg)
  /-- `Fx07`, LD Vx, DT (R160). -/
  | ldVxDt (x : Reg)
  /-- `Fx0A`, LD Vx, K (R164). -/
  | ldVxK (x : Reg)
  /-- `Fx15`, LD DT, Vx (R161). -/
  | ldDtVx (x : Reg)
  /-- `Fx18`, LD ST, Vx (R162). -/
  | ldStVx (x : Reg)
  /-- `Fx1E`, ADD I, Vx (R141). -/
  | addI (x : Reg)
  /-- `Fx29`, LD F, Vx (R142). -/
  | ldF (x : Reg)
  /-- `Fx33`, LD B, Vx (R143). -/
  | ldB (x : Reg)
  /-- `Fx55`, LD [I], Vx (R144). -/
  | ldMemVx (x : Reg)
  /-- `Fx65`, LD Vx, [I] (R145). -/
  | ldVxMem (x : Reg)
deriving DecidableEq, Repr

end Sys2Proof
end

