-- ==== Sys2Proof/Machine/State.lean ====
section
/-! DEFINITION. The state of the machine (10_state.md R10 to R26) as plain data, the reasons a step can stop, and the
state after reset (R24). -/

namespace Sys2Proof.Machine

/-- `MEM` (20_memory.md R40): the bytes that differ from their reset contents, addresses strictly rising. What an
unlisted address reads as is `Memory.resetByte` of Machine/Ops.lean; the canonical form is `Memory.wf` (log entry 8). -/
abbrev Memory := List Host.Cell

/-- `FB` (R22): 32 rows, from the top, of 64 cells, from the left; true is lit. -/
abbrev Screen := Vector (Vector Bool 64) 32

/-- `HALT` (R20, R200): running, or the cause of the fatal halt. Its 3-bit codes are `HaltStatus.code` of
Machine/Ops.lean (log entry 18). -/
inductive HaltStatus where
  /-- Code 0. -/
  | running
  /-- Code 1, R201. -/
  | decodeError
  /-- Code 2, R202. -/
  | stackOverflow
  /-- Code 3, R203. -/
  | memoryBoundsFault
  /-- Code 4, R204. -/
  | keyIndexFault
deriving DecidableEq, Repr

/-- The reasons a step stops OUTSIDE the machine's own state: none. Each of the spec's four faults has an entry the spec
describes (60_exceptions.md R205): it is taken, as a next state with `HALT` and `HALT_INFO` written, and the halted
machine keeps answering next states (R206). So nothing of the model answers `Outcome.fault` (log entry 6). -/
inductive Fault
deriving DecidableEq, Repr

/-- The reasons the model gives no meaning. No step raises any of them. -/
inductive Refusal where
  /-- Reserved for an instruction of the opcode table without a meaning: raised by nothing, every arm of `exec` calls a
  meaning. Safe: such an instruction would stop the run. -/
  | notModelled (mnemonic : String)
  /-- Raised by the host event `LOAD` with an image longer than 3584 bytes, which the spec says is no event of the machine
  (70_reset_and_hazards.md R233, decision D16). Safe: no claim speaks of such a run. -/
  | imageTooLong
  /-- Raised by `runEvents` for an event out of the boot order (R234, decision D21), which the spec says is no event of the
  machine. Safe: no claim speaks of such a run. -/
  | bootOrder
deriving DecidableEq, Repr

/-- The state. The spec's ten items (R10) and two fields of the model's own, `draws` and `params`. -/
structure State where
  /-- `MEM` (R40). -/
  mem : Memory
  /-- `V[0..15]` (R11). -/
  v : Vector Byte 16
  /-- `I` (R16). -/
  i : Word
  /-- `pc` (R13). -/
  pc : Word
  /-- The live entries of `STACK`, newest first; `SP` is their number (R18, log entry 7). -/
  stack : List Word
  /-- `DT` (R17). -/
  dt : Byte
  /-- `ST` (R17). -/
  st : Byte
  /-- `KEY[0..15]` (R21). -/
  key : Vector Bool 16
  /-- `FB` (R22). -/
  fb : Screen
  /-- `HALT` (R20). -/
  halt : HaltStatus
  /-- `HALT_INFO` (R20). -/
  haltInfo : Word
  /-- The model's own: how many random bytes have been consumed, the index of the free value `Config.rnd` (log entry 2). -/
  draws : Nat
  /-- The model's own: the parameters of R5, which nothing writes (log entry 24). -/
  params : Params
deriving DecidableEq, Repr

/-- A cleared display (R24, R150). -/
def Screen.clear : Screen := Vector.replicate 32 (Vector.replicate 64 false)

/-- The state after `RESET` with given parameters (R24, R230). Memory lists nothing: every byte holds its reset contents,
the font and zeros. `draws := 0` is a DESIGN CHOICE (log entry 2). -/
def State.resetWith (p : Params) : State where
  mem := []
  v := Vector.replicate 16 0x00#8
  i := 0x0000#16
  pc := 0x0200#16
  stack := []
  dt := 0x00#8
  st := 0x00#8
  key := Vector.replicate 16 false
  fb := Screen.clear
  halt := .running
  haltInfo := 0x0000#16
  draws := 0
  params := p

/-- The state after `RESET`, with the spec's default parameters (R5). -/
def State.reset : State := State.resetWith Params.default

/-- What an instruction, a step or a host event answers. -/
abbrev Answer := Host.Outcome State Fault Refusal

end Sys2Proof.Machine
end

