-- ==== Sys2Proof/Machine/Ops.lean ====
section
/-! DEFINITION. The named operations over memory, registers, the program counter and the call stack, and TAKING A FAULT
(60_exceptions.md R205) as one shared operation. There is no return from a fault to stand beside it (R208): only the
event `RESET` leaves the halted state (Machine/Events.lean). -/

namespace Sys2Proof.Machine

/-! ### Memory (20_memory.md) -/

/-- What an address holds after reset: `FONT` at 0x000 to 0x04F, zero elsewhere (R24, R45). -/
def Memory.resetByte (font : List Byte) (a : Nat) : Byte := font.getD a 0x00#8

/-- The byte at an address (R47): the listed one, else the reset contents. -/
def Memory.read (font : List Byte) : Memory → Nat → Byte
  | [], a => Memory.resetByte font a
  | (b, v) :: rest, a => if a = b then v else Memory.read font rest a

/-- Store a byte, keeping the canonical form: a byte equal to the address's reset contents is not listed. -/
def Memory.write (font : List Byte) : Memory → Nat → Byte → Memory
  | [], a, v => if v = Memory.resetByte font a then [] else [(a, v)]
  | (b, w) :: rest, a, v =>
    if a < b then
      if v = Memory.resetByte font a then (b, w) :: rest else (a, v) :: (b, w) :: rest
    else if a = b then
      if v = Memory.resetByte font a then rest else (a, v) :: rest
    else (b, w) :: Memory.write font rest a v

/-- The canonical form from address `lo` on: addresses strictly rising and inside the address space (R40), no entry equal
to what the address reads as when unlisted. -/
def Memory.wfFrom (font : List Byte) : Nat → Memory → Bool
  | _, [] => true
  | lo, (a, v) :: rest =>
    decide (lo ≤ a) && decide (a < Config.memSize) && decide (v ≠ Memory.resetByte font a) && Memory.wfFrom font (a + 1) rest

/-- The canonical form of a memory. -/
def Memory.wf (font : List Byte) (m : Memory) : Bool := Memory.wfFrom font 0 m

/-- Store several bytes at ascending addresses (R42, R44). -/
def Memory.writeBytes (font : List Byte) : Memory → Nat → List Byte → Memory
  | m, _, [] => m
  | m, a, b :: bs => Memory.writeBytes font (m.write font a b) (a + 1) bs

/-- Read several bytes at ascending addresses (R42, R44). -/
def Memory.readBytes (font : List Byte) (m : Memory) (a : Nat) : Nat → List Byte
  | 0 => []
  | n + 1 => m.read font a :: Memory.readBytes font m (a + 1) n

/-- `FONT`, as this machine has it (R5). -/
def State.font (s : State) : List Byte := s.params.font

/-- `MemRead(a, 1)` inside the address space (00_scope.md R7). -/
def State.readByte (s : State) (a : Nat) : Byte := s.mem.read s.font a

/-- The bytes at ascending addresses from `base`, all in range. -/
def State.readBytes (s : State) (base count : Nat) : List Byte := s.mem.readBytes s.font base count

/-- Whether the memory is canonical. -/
def State.memWf (s : State) : Bool := s.mem.wf s.font

/-- Store bytes at ascending addresses from `base`, all in range. -/
def State.storeBytes (s : State) (base : Nat) (bytes : List Byte) : State := 
  { s with mem := s.mem.writeBytes s.font base bytes }

/-! ### Registers and the program counter -/

/-- `V[x]` (R7). -/
def State.reg (s : State) (x : Reg) : Byte := s.v[x]

/-- `V[x] <- b` (R7). -/
def State.setReg (s : State) (x : Reg) (b : Byte) : State := { s with v := s.v.set x b }

/-- `VF <- 1` or `VF <- 0` (10_state.md R15). -/
def State.setFlag (s : State) (f : Bool) : State := s.setReg VF (if f then 0x01#8 else 0x00#8)

/-- `I <- w` (R16). -/
def State.setI (s : State) (w : Word) : State := { s with i := w }

/-- `DT <- b` (R17). -/
def State.setDt (s : State) (b : Byte) : State := { s with dt := b }

/-- `ST <- b` (R17). -/
def State.setSt (s : State) (b : Byte) : State := { s with st := b }

/-- `pc <- target` (R13), at the width `PC_BITS`. -/
def State.jump (s : State) (target : Word) : State := { s with pc := s.params.cutPc target }

/-- `pc + k`, at the width `PC_BITS` (R13): the sum itself in every run (R14). -/
def State.pcPlus (s : State) (k : Word) : Word := s.params.cutPc (s.pc + k)

/-- `pc <- pc + 2` (00_scope.md R8). -/
def State.advance (s : State) : State := s.jump (s.pc + 2#16)

/-- A conditional skip: `pc <- pc + 4` in place of `pc <- pc + 2` (R8, R61). -/
def State.skipIf (s : State) (c : Bool) : State := s.jump (if c then s.pc + 4#16 else s.pc + 2#16)

/-! ### The call stack (10_state.md R18) -/

/-- `SP`, the number of live entries. -/
def State.sp (s : State) : Nat := s.stack.length

/-- `STACK[j]`, 0 the oldest; none for a dead entry, which no rule reads. -/
def State.stackEntry (s : State) (j : Nat) : Option Word := s.stack.reverse[j]?

/-- The live entries become `entries`, newest first. -/
def State.setStack (s : State) (entries : List Word) : State := { s with stack := entries }

/-- Push an entry on a stack that has room. -/
def State.push (s : State) (w : Word) : State := s.setStack (w :: s.stack)

/-! ### Taking a fault (60_exceptions.md R200 to R205) -/

/-- The 3-bit code of `HALT` (R200). -/
def HaltStatus.code : HaltStatus → BitVec 3
  | .running => 0#3
  | .decodeError => 1#3
  | .stackOverflow => 2#3
  | .memoryBoundsFault => 3#3
  | .keyIndexFault => 4#3

/-- `raise <Fault>(info)`: `HALT` and `HALT_INFO` are written and nothing else; in particular `pc` keeps the address of
the faulting instruction (R205, decision D7). -/
def State.raise (s : State) (cause : HaltStatus) (info : Word) : State := { s with halt := cause, haltInfo := info }

/-- The `HALT_INFO` of an access to `count` bytes from `base` of which one lies above 0xFFF: the lowest address out of
range, `max(base, 0x1000)`; none when all are in range, or there is no byte at all (20_memory.md R43, decision D5).
Addresses are natural numbers: nothing wraps (R41). -/
def boundsFault (base count : Nat) : Option Word :=
  if count ≥ 1 ∧ base + count - 1 > 0xFFF then some (BitVec.ofNat 16 (max base 0x1000)) else none

/-- Check the whole access before the first change of state (R43): fault, or go on. -/
def State.withBytes (s : State) (base count : Nat) (go : State) : State :=
  match boundsFault base count with
  | some info => s.raise .memoryBoundsFault info
  | none => go

end Sys2Proof.Machine
end

