-- ==== Sys2Proof/Machine/Flags.lean ====
section
/-! DEFINITION. The flag computations (10_state.md R15, 41_alu.md R126 to R133): the six instructions that write a flag
take it from here; the collision flag of `Dxyn` is computed with the pixels in Machine/Display.lean. -/

namespace Sys2Proof.Machine

/-- The carry out of the 8-bit addition (R127). -/
def carryOut (a b : Byte) : Bool := decide (a.toNat + b.toNat > 255)

/-- No borrow in `minuend - subtrahend`: false exactly when the subtrahend is greater (R128, R130). -/
def notBorrow (minuend subtrahend : Byte) : Bool := decide (¬ subtrahend.toNat > minuend.toNat)

/-- Bit 0, the flag of `8xy6` (R129). -/
def bitZero (b : Byte) : Bool := b.getLsbD 0

/-- Bit 7, the flag of `8xyE` (R131). -/
def bitSeven (b : Byte) : Bool := b.getLsbD 7

end Sys2Proof.Machine
end

