-- ==== Sys2Proof/Machine/Operands.lean ====
section
/-! DEFINITION. The operand forms of the whole instruction set (30_encoding.md R62): addresses from `nnn`, from `I`, the
implicit operands `V[0]`, `KEY`, `RND`, and the byte sequences an instruction lays out in memory. -/

namespace Sys2Proof.Machine

/-- `zext_16(nnn)`: an absolute address (R62). -/
def addressOf (nnn : Addr12) : Word := nnn.zeroExtend 16

/-- `zext_16(b)` (00_scope.md R7): every widening is a zero extension. -/
def widen (b : Byte) : Word := b.zeroExtend 16

/-- `nnn + V[0]`: a 16-bit sum, no mask to 12 bits (40_control_flow.md R104, C11). -/
def offsetTarget (nnn : Addr12) (v0 : Byte) : Word := addressOf nnn + widen v0

/-- The address of a digit's glyph, `5 * V[x]`, the whole register taken (42_index_memory.md R142). -/
def glyphAddress (b : Byte) : Word := 5#16 * widen b

/-- The memory address in `I` as a natural number, to which offsets are added without wrap (R41, R146). -/
def State.indexAddress (s : State) : Nat := s.i.toNat

/-- Hundreds, tens, ones of a byte, in the order of their addresses (R143). -/
def bcdDigits (b : Byte) : List Byte :=
  [BitVec.ofNat 8 (b.toNat / 100), BitVec.ofNat 8 (b.toNat / 10 % 10), BitVec.ofNat 8 (b.toNat % 10)]

/-- How many registers `V[0]` to `V[x]` are (R144, R145). -/
def regCount (x : Reg) : Nat := x.val + 1

/-- `V[0]` to `V[x]`, ascending (R144). -/
def State.regsUpTo (s : State) (x : Reg) : List Byte := s.v.toList.take (regCount x)

/-- Load `V[0]` to `V[x]` from ascending addresses; the registers above keep their values (R145). -/
def State.loadRegs (s : State) (x : Reg) (base : Nat) : State :=
  { s with v := Vector.ofFn fun k : Fin 16 => if k ≤ x then s.readByte (base + k.val) else s.v[k] }

/-- The key a register names, none for an index above 15 (44_timers_input.md R163). -/
def keyNamed (b : Byte) : Option Key := if h : b.toNat < 16 then some ⟨b.toNat, h⟩ else none

/-- Whether a key is down (R21). -/
def State.keyIsDown (s : State) (k : Key) : Bool := s.key[k]

/-- The lowest-indexed key that is down, if any (R164). -/
def State.lowestKey (s : State) : Option Key := (List.finRange 16).find? fun k => s.keyIsDown k

/-- `RND`: the byte the host supplies to this execution of `Cxnn`, a free value (41_alu.md R132, log entry 2). -/
def State.rndByte (s : State) : Byte := Config.rnd s.draws

/-- One random byte has been consumed. -/
def State.drawn (s : State) : State := { s with draws := s.draws + 1 }

end Sys2Proof.Machine
end

