-- ==== Sys2Proof/Machine/Alu.lean ====
section
/-! DEFINITION. Register load, arithmetic, logic, shift and random (41_alu.md R120 to R133). Where a rule writes two
registers the writes are made in the rule's order, each reading what the one before left, unless the rule captures the
originals (R126, decision D8, log entry 11). -/

namespace Sys2Proof.Machine

/-- The one effect of the instructions that write a register and no flag: `V[x] <- b`, `pc + 2`. -/
def State.putReg (s : State) (x : Reg) (b : Byte) : State := (s.setReg x b).advance

/-- `V[d] <- b`, then `VF <- f`, then `pc + 2`: the flag wins when `d` is `VF` (R126 to R128, R130). -/
def State.putRegThenFlag (s : State) (d : Reg) (b : Byte) (f : Bool) : State := ((s.setReg d b).setFlag f).advance

/-- `6xnn` (R120). -/
def execLdImm (x : Reg) (nn : Byte) (s : State) : Answer := .next (s.putReg x nn)

/-- `7xnn` (R121): modulo 256, no flag. -/
def execAddImm (x : Reg) (nn : Byte) (s : State) : Answer := .next (s.putReg x (s.reg x + nn))

/-- `8xy0` (R122). -/
def execLdReg (x y : Reg) (s : State) : Answer := .next (s.putReg x (s.reg y))

/-- `8xy1` (R123): no flag. -/
def execOrReg (x y : Reg) (s : State) : Answer := .next (s.putReg x (s.reg x ||| s.reg y))

/-- `8xy2` (R124): no flag. -/
def execAndReg (x y : Reg) (s : State) : Answer := .next (s.putReg x (s.reg x &&& s.reg y))

/-- `8xy3` (R125): no flag. -/
def execXorReg (x y : Reg) (s : State) : Answer := .next (s.putReg x (s.reg x ^^^ s.reg y))

/-- `8xy4` (R127): the sum modulo 256, then `VF` the carry. -/
def execAddReg (x y : Reg) (s : State) : Answer :=
  .next (s.putRegThenFlag x (s.reg x + s.reg y) (carryOut (s.reg x) (s.reg y)))

/-- `8xy5` (R128): from the originals, `V[x] - V[y]`, then `VF` not borrow. -/
def execSub (x y : Reg) (s : State) : Answer :=
  .next (s.putRegThenFlag x (s.reg x - s.reg y) (notBorrow (s.reg x) (s.reg y)))

/-- `8xy6` (R129): `VF` from bit 0 of `V[x]` first, then `V[x] <- V[y] >> 1`, which reads `V[y]` after the flag write. -/
def execShr (x y : Reg) (s : State) : Answer :=
  let flagged := s.setFlag (bitZero (s.reg x))
  .next (flagged.putReg x (flagged.reg y >>> 1))

/-- `8xy7` (R130): from the originals, `V[y] - V[x]` into `V[y]`, then `VF` not borrow. -/
def execSuby (x y : Reg) (s : State) : Answer :=
  .next (s.putRegThenFlag y (s.reg y - s.reg x) (notBorrow (s.reg y) (s.reg x)))

/-- `8xyE` (R131): `VF` from bit 7 of `V[x]` first, then `V[x] <- V[x] << 1`, which reads `V[x]` after the flag write.
The field `y` is not used. -/
def execShl (x _y : Reg) (s : State) : Answer :=
  let flagged := s.setFlag (bitSeven (s.reg x))
  .next (flagged.putReg x (flagged.reg x <<< 1))

/-- `Cxnn` with the random byte given (R132). -/
def State.putRandom (s : State) (r : Byte) (x : Reg) (nn : Byte) : State := s.drawn.putReg x (r &&& nn)

/-- `Cxnn` (R132): the byte is a free value, and one is consumed (log entry 2). -/
def execRnd (x : Reg) (nn : Byte) (s : State) : Answer := .next (s.putRandom s.rndByte x nn)

end Sys2Proof.Machine
end

