-- ==== Sys2Proof/Machine/Control.lean ====
section
/-! DEFINITION. Control flow, subroutines and skips (40_control_flow.md R100 to R108). -/

namespace Sys2Proof.Machine

/-- The return with a stack given by its live entries: pop if there is one, then `pc + 2` in both cases (R101, C2). -/
def State.popAndAdvance (s : State) : State :=
  match s.stack with
  | [] => s.advance
  | top :: older => ((s.setStack older).jump top).advance

/-- The call on a stack of capacity `depth`: the entry pushed is the address of the call itself (R103, N23). -/
def State.callWithin (s : State) (depth : Nat) (target : Word) : State :=
  if s.sp = depth then s.raise .stackOverflow s.pc else (s.push s.pc).jump target

/-- `00EE` (R101). -/
def execRet (s : State) : Answer := .next s.popAndAdvance

/-- `1nnn` (R102). -/
def execJp (nnn : Addr12) (s : State) : Answer := .next (s.jump (addressOf nnn))

/-- `2nnn` (R103, decision D4, log entries 3 and 7): the capacity is the machine's `STACK_DEPTH`. -/
def execCall (nnn : Addr12) (s : State) : Answer := .next (s.callWithin s.params.stackDepth (addressOf nnn))

/-- `Bnnn` (R104, C11). -/
def execJpV0 (nnn : Addr12) (s : State) : Answer := .next (s.jump (offsetTarget nnn (s.reg V0)))

/-- `3xnn` (R105). -/
def execSeImm (x : Reg) (nn : Byte) (s : State) : Answer := .next (s.skipIf (decide (s.reg x = nn)))

/-- `4xnn` (R106). -/
def execSneImm (x : Reg) (nn : Byte) (s : State) : Answer := .next (s.skipIf (decide (s.reg x ≠ nn)))

/-- `5xy0` (R107). -/
def execSeReg (x y : Reg) (s : State) : Answer := .next (s.skipIf (decide (s.reg x = s.reg y)))

/-- `9xy0` (R108). -/
def execSneReg (x y : Reg) (s : State) : Answer := .next (s.skipIf (decide (s.reg x ≠ s.reg y)))

end Sys2Proof.Machine
end

