-- ==== Sys2Proof/Machine/Display.lean ====
section
/-! DEFINITION. Display instructions (43_display.md R150 to R152): the sprite is drawn pixel by pixel as the rule's
loops do it. -/

namespace Sys2Proof.Machine

/-- `FB[r][c]` (10_state.md R22). -/
def Screen.cell (fb : Screen) (r : Fin 32) (c : Fin 64) : Bool := fb[r][c]

/-- `FB[r][c] <- not FB[r][c]`. -/
def Screen.toggle (fb : Screen) (r : Fin 32) (c : Fin 64) : Screen := fb.set r (fb[r].set c (!fb.cell r c))

/-- The pixel of a sprite byte in column `c`: bit 7 is the leftmost (R151, decision D9, log entry 12). -/
def spritePixel (b : Byte) (c : Nat) : Bool := b.getLsbD (7 - c)

/-- The row of the display that a coordinate falls in (R152). -/
def wrapRow (r : Nat) : Fin 32 := ⟨r % 32, Nat.mod_lt _ (by decide)⟩

/-- The column of the display that a coordinate falls in (R152). -/
def wrapCol (c : Nat) : Fin 64 := ⟨c % 64, Nat.mod_lt _ (by decide)⟩

/-- One pixel of the inner loop, over the display and the collision found so far: a 1 toggles its cell, and a cell that
was set is a collision; a 0 changes nothing. -/
def drawPixel (cx cy r : Nat) (b : Byte) (d : Screen × Bool) (c : Nat) : Screen × Bool :=
  if spritePixel b c then
    let row := wrapRow (cy + r)
    let col := wrapCol (cx + c)
    (d.1.toggle row col, d.2 || d.1.cell row col)
  else d

/-- Sprite row `r`: eight pixels, leftmost first. -/
def drawRow (cx cy r : Nat) (b : Byte) (d : Screen × Bool) : Screen × Bool :=
  (List.range 8).foldl (drawPixel cx cy r b) d

/-- The sprite rows from row `r` on, top first. -/
def drawRows (cx cy : Nat) : Nat → List Byte → Screen × Bool → Screen × Bool
  | _, [], d => d
  | r, b :: bs, d => drawRows cx cy (r + 1) bs (drawRow cx cy r b d)

/-- The display and the collision flag after a sprite is drawn with its corner at `(cx, cy)`. -/
def drawSprite (fb : Screen) (cx cy : Nat) (sprite : List Byte) : Screen × Bool := drawRows cx cy 0 sprite (fb, false)

/-- The column origin, `V[x] mod 64`. -/
def originCol (b : Byte) : Nat := b.toNat % 64

/-- The row origin, `V[y] mod 32`. -/
def originRow (b : Byte) : Nat := b.toNat % 32

/-- `FB <- fb`. -/
def State.setScreen (s : State) (fb : Screen) : State := { s with fb := fb }

/-- `Dxyn` once its bytes are known to be in range: the display, then `VF <- hit`, then `pc + 2`; `I` is unchanged. -/
def State.drawAt (s : State) (cx cy : Nat) (sprite : List Byte) : State :=
  let drawn := drawSprite s.fb cx cy sprite
  ((s.setScreen drawn.1).setFlag drawn.2).advance

/-- `00E0` (R150). -/
def execCls (s : State) : Answer := .next (s.setScreen Screen.clear).advance

/-- `Dxyn` (R151, decisions D5 and D9): the origin is taken from the registers before `VF` is written. -/
def execDrw (x y : Reg) (n : Nibble) (s : State) : Answer :=
  .next (s.withBytes s.indexAddress n.toNat
    (s.drawAt (originCol (s.reg x)) (originRow (s.reg y)) (s.readBytes s.indexAddress n.toNat)))

end Sys2Proof.Machine
end

