-- ==== Sys2Proof/Machine/Index.lean ====
section
/-! DEFINITION. Address register and memory transfer (42_index_memory.md R140 to R146). The whole access is checked
before the first change of state (20_memory.md R43, decision D5, log entry 13). -/

namespace Sys2Proof.Machine

/-- `I <- I + x + 1`, after all bytes have moved (R144, R145). -/
def State.bumpIndex (s : State) (x : Reg) : State := s.setI (s.i + BitVec.ofNat 16 (regCount x))

/-- `Annn` (R140). -/
def execLdI (nnn : Addr12) (s : State) : Answer := .next (s.setI (addressOf nnn)).advance

/-- `Fx1E` (R141, decision D3, log entry 16): modulo 2^16, no flag. -/
def execAddI (x : Reg) (s : State) : Answer := .next (s.setI (s.i + widen (s.reg x))).advance

/-- `Fx29` (R142). -/
def execLdF (x : Reg) (s : State) : Answer := .next (s.setI (glyphAddress (s.reg x))).advance

/-- `Fx33` (R143): the three digits at `I`, `I + 1`, `I + 2`; `I` is unchanged. -/
def execLdB (x : Reg) (s : State) : Answer :=
  .next (s.withBytes s.indexAddress 3 (s.storeBytes s.indexAddress (bcdDigits (s.reg x))).advance)

/-- `Fx55` (R144): `V[0]` to `V[x]` at `I` on, then `I + x + 1`. -/
def execLdMemVx (x : Reg) (s : State) : Answer :=
  .next (s.withBytes s.indexAddress (regCount x)
    ((s.storeBytes s.indexAddress (s.regsUpTo x)).bumpIndex x).advance)

/-- `Fx65` (R145): `V[0]` to `V[x]` from `I` on, then `I + x + 1`. -/
def execLdVxMem (x : Reg) (s : State) : Answer :=
  .next (s.withBytes s.indexAddress (regCount x) ((s.loadRegs x s.indexAddress).bumpIndex x).advance)

end Sys2Proof.Machine
end

