-- ==== Sys2Proof/Machine/TimersInput.lean ====
section
/-! DEFINITION. Timer and keypad instructions (44_timers_input.md R160 to R165). -/

namespace Sys2Proof.Machine

/-- `Fx07` (R160): the read has no side effect. -/
def execLdVxDt (x : Reg) (s : State) : Answer := .next (s.setReg x s.dt).advance

/-- `Fx15` (R161). -/
def execLdDtVx (x : Reg) (s : State) : Answer := .next (s.setDt (s.reg x)).advance

/-- `Fx18` (R162). -/
def execLdStVx (x : Reg) (s : State) : Answer := .next (s.setSt (s.reg x)).advance

/-- Test the key that `V[x]` names, or fault for an index above 15 before any change (R204, decision D6, log entry 14). -/
def State.testKey (s : State) (x : Reg) (go : Bool → State) : State :=
  match keyNamed (s.reg x) with
  | some k => go (s.keyIsDown k)
  | none => s.raise .keyIndexFault (widen (s.reg x))

/-- `Ex9E` (R163). -/
def execSkp (x : Reg) (s : State) : Answer := .next (s.testKey x fun down => s.skipIf down)

/-- `ExA1` (R165). -/
def execSknp (x : Reg) (s : State) : Answer := .next (s.testKey x fun down => s.skipIf (!down))

/-- `Fx0A` (R164, decision D14, log entry 17): with no key down nothing changes, and the next step fetches the same word. -/
def execLdVxK (x : Reg) (s : State) : Answer :=
  match s.lowestKey with
  | some k => .next (s.setReg x (BitVec.ofNat 8 k.val)).advance
  | none => .next s

end Sys2Proof.Machine
end

