-- ==== Sys2Proof/WellFormed.lean ====
section
/-! DEFINITION. What is well formed before it reaches the machine. An `Instr` needs no check of its own: its fields'
types hold exactly the values the spec calls legal (30_encoding.md R62, R67). What can be ill formed is an instruction
WORD (R65), a program IMAGE (70_reset_and_hazards.md R233) and a key INDEX at the host interface (60_exceptions.md R216).
The order of the host's events is checked beside the events (Machine/Events.lean, R234). -/

namespace Sys2Proof

/-- A legal instruction word, written from the table of illegal words in R65 and independent of the decoder: by the top
digit `hi4`, which low digits leave the word legal. -/
def legalWord (op : Word) : Bool :=
  let hi4 := op.toNat / 0x1000
  let nnn := op.toNat % 0x1000
  let nn := op.toNat % 0x100
  let n := op.toNat % 0x10
  if hi4 = 0x0 then decide (nnn ∈ [0x0E0, 0x0EE])
  else if hi4 = 0x5 then decide (n = 0)
  else if hi4 = 0x8 then decide (n ∉ [0x8, 0x9, 0xA, 0xB, 0xC, 0xD, 0xF])
  else if hi4 = 0x9 then decide (n = 0)
  else if hi4 = 0xE then decide (nn ∈ [0x9E, 0xA1])
  else if hi4 = 0xF then decide (nn ∈ [0x07, 0x0A, 0x15, 0x18, 0x1E, 0x29, 0x33, 0x55, 0x65])
  else true

/-- A program image fits from 0x200 to the end of memory: 0 to 3584 bytes (R233, decision D16). -/
def imageFits (bytes : List Byte) : Bool := decide (bytes.length ≤ 3584)

/-- A key index of the host interface names one of the 16 keys (R216, decision D20). -/
def keyIndexFits (k : Nat) : Bool := decide (k ≤ 15)

end Sys2Proof
end

