-- ==== Sys2Proof/Decode.lean ====
section
/-! DEFINITION. Decoding and encoding (30_encoding.md R60 to R71): the fields of a word, the decoder by the two-level
dispatch of R63 with exact matching (R64), decoding from bytes (big-endian, 20_memory.md R42), then the encoder by the
formats of R61, the opcode map as data (R63), and the host's entry point `decodeTableWord`. -/

namespace Sys2Proof

/-! ### Fields (R6, R61) -/

/-- A register index from the four bits that name it. -/
def regOfNibble (b : Nibble) : Reg := b.toFin

/-- The four bits that name a register. -/
def nibbleOfReg (x : Reg) : Nibble := BitVec.ofFin x

/-- `op[15:12]`, the digit of the first-level dispatch. -/
def fieldHi4 (op : Word) : Nibble := op.extractLsb' 12 4

/-- `x = op[11:8]`. -/
def fieldX (op : Word) : Reg := regOfNibble (op.extractLsb' 8 4)

/-- `y = op[7:4]`. -/
def fieldY (op : Word) : Reg := regOfNibble (op.extractLsb' 4 4)

/-- `n = op[3:0]`. -/
def fieldN (op : Word) : Nibble := op.extractLsb' 0 4

/-- `nn = op[7:0]`. -/
def fieldNN (op : Word) : Byte := op.extractLsb' 0 8

/-- `nnn = op[11:0]`. -/
def fieldNNN (op : Word) : Addr12 := op.extractLsb' 0 12

/-! ### The decoder -/

/-- Second-level dispatch for `hi4 = 0`: the whole low 12 bits must match (R64, decision D12; no `0nnn`, R66). -/
def decodeGroup0 (op : Word) : Option Instr :=
  match fieldNNN op with
  | 0x0E0#12 => some .cls
  | 0x0EE#12 => some .ret
  | _ => none

/-- Second-level dispatch for `hi4 = 8`, on the low digit. -/
def decodeGroup8 (op : Word) : Option Instr :=
  let x := fieldX op
  let y := fieldY op
  match fieldN op with
  | 0x0#4 => some (.ldReg x y)
  | 0x1#4 => some (.orReg x y)
  | 0x2#4 => some (.andReg x y)
  | 0x3#4 => some (.xorReg x y)
  | 0x4#4 => some (.addReg x y)
  | 0x5#4 => some (.sub x y)
  | 0x6#4 => some (.shr x y)
  | 0x7#4 => some (.suby x y)
  | 0xE#4 => some (.shl x y)
  | _ => none

/-- Second-level dispatch for `hi4 = E`, on the low byte. -/
def decodeGroupE (op : Word) : Option Instr :=
  match fieldNN op with
  | 0x9E#8 => some (.skp (fieldX op))
  | 0xA1#8 => some (.sknp (fieldX op))
  | _ => none

/-- Second-level dispatch for `hi4 = F`, on the low byte. -/
def decodeGroupF (op : Word) : Option Instr :=
  let x := fieldX op
  match fieldNN op with
  | 0x07#8 => some (.ldVxDt x)
  | 0x0A#8 => some (.ldVxK x)
  | 0x15#8 => some (.ldDtVx x)
  | 0x18#8 => some (.ldStVx x)
  | 0x1E#8 => some (.addI x)
  | 0x29#8 => some (.ldF x)
  | 0x33#8 => some (.ldB x)
  | 0x55#8 => some (.ldMemVx x)
  | 0x65#8 => some (.ldVxMem x)
  | _ => none

/-- `5xy0` and `9xy0`: the low digit must be 0 (R64, C5). -/
def decodeIfLowZero (op : Word) (i : Instr) : Option Instr :=
  if fieldN op = 0x0#4 then some i else none

/-- The instruction of a word, `none` for the words R65 calls illegal. It depends on the word alone (R71). -/
def decodeWord (op : Word) : Option Instr :=
  match fieldHi4 op with
  | 0x0#4 => decodeGroup0 op
  | 0x1#4 => some (.jp (fieldNNN op))
  | 0x2#4 => some (.call (fieldNNN op))
  | 0x3#4 => some (.seImm (fieldX op) (fieldNN op))
  | 0x4#4 => some (.sneImm (fieldX op) (fieldNN op))
  | 0x5#4 => decodeIfLowZero op (.seReg (fieldX op) (fieldY op))
  | 0x6#4 => some (.ldImm (fieldX op) (fieldNN op))
  | 0x7#4 => some (.addImm (fieldX op) (fieldNN op))
  | 0x8#4 => decodeGroup8 op
  | 0x9#4 => decodeIfLowZero op (.sneReg (fieldX op) (fieldY op))
  | 0xA#4 => some (.ldI (fieldNNN op))
  | 0xB#4 => some (.jpV0 (fieldNNN op))
  | 0xC#4 => some (.rnd (fieldX op) (fieldNN op))
  | 0xD#4 => some (.drw (fieldX op) (fieldY op) (fieldN op))
  | 0xE#4 => decodeGroupE op
  | 0xF#4 => decodeGroupF op
  | _ => none

/-- What decoding a byte sequence gives: an instruction and the bytes after it, or a rejection by name. -/
inductive Decoded where
  /-- A legal word, and the bytes that follow its two. -/
  | instr (i : Instr) (rest : List Byte)
  /-- The word matches no row of the opcode map (R65). -/
  | illegal (op : Word)
  /-- Fewer than the two bytes of an instruction (R61). -/
  | truncated
deriving DecidableEq, Repr

/-- The word of two bytes, the first the high one (20_memory.md R42). -/
def wordOfBytes (hi lo : Byte) : Word := hi ++ lo

/-- The high byte of a word, stored at the lower address (R42). -/
def highByte (op : Word) : Byte := op.extractLsb' 8 8

/-- The low byte of a word, stored at the higher address (R42). -/
def lowByte (op : Word) : Byte := op.extractLsb' 0 8

/-- Decoding, total on any bytes: every instruction is two bytes long (R61). -/
def decode : List Byte → Decoded
  | hi :: lo :: rest =>
    match decodeWord (wordOfBytes hi lo) with
    | some i => .instr i rest
    | none => .illegal (wordOfBytes hi lo)
  | _ => .truncated

/-! ### The encoder (R61) -/

/-- Format ADDR: `hi4 : nnn`. -/
def packAddr (hi4 : Nibble) (nnn : Addr12) : Word := hi4 ++ nnn

/-- Formats REG_IMM and REG_FN: `hi4 : x : nn`. -/
def packRegByte (hi4 : Nibble) (x : Reg) (nn : Byte) : Word := hi4 ++ nibbleOfReg x ++ nn

/-- Formats REG_REG and REG_REG_N: `hi4 : x : y : n`. -/
def packRegReg (hi4 : Nibble) (x y : Reg) (n : Nibble) : Word := hi4 ++ nibbleOfReg x ++ nibbleOfReg y ++ n

/-- The word of an instruction, by its pattern in R63. -/
def encode : Instr → Word
  | .cls => 0x00E0#16
  | .ret => 0x00EE#16
  | .jp nnn => packAddr 0x1#4 nnn
  | .call nnn => packAddr 0x2#4 nnn
  | .seImm x nn => packRegByte 0x3#4 x nn
  | .sneImm x nn => packRegByte 0x4#4 x nn
  | .seReg x y => packRegReg 0x5#4 x y 0x0#4
  | .ldImm x nn => packRegByte 0x6#4 x nn
  | .addImm x nn => packRegByte 0x7#4 x nn
  | .ldReg x y => packRegReg 0x8#4 x y 0x0#4
  | .orReg x y => packRegReg 0x8#4 x y 0x1#4
  | .andReg x y => packRegReg 0x8#4 x y 0x2#4
  | .xorReg x y => packRegReg 0x8#4 x y 0x3#4
  | .addReg x y => packRegReg 0x8#4 x y 0x4#4
  | .sub x y => packRegReg 0x8#4 x y 0x5#4
  | .shr x y => packRegReg 0x8#4 x y 0x6#4
  | .suby x y => packRegReg 0x8#4 x y 0x7#4
  | .shl x y => packRegReg 0x8#4 x y 0xE#4
  | .sneReg x y => packRegReg 0x9#4 x y 0x0#4
  | .ldI nnn => packAddr 0xA#4 nnn
  | .jpV0 nnn => packAddr 0xB#4 nnn
  | .rnd x nn => packRegByte 0xC#4 x nn
  | .drw x y n => packRegReg 0xD#4 x y n
  | .skp x => packRegByte 0xE#4 x 0x9E#8
  | .sknp x => packRegByte 0xE#4 x 0xA1#8
  | .ldVxDt x => packRegByte 0xF#4 x 0x07#8
  | .ldVxK x => packRegByte 0xF#4 x 0x0A#8
  | .ldDtVx x => packRegByte 0xF#4 x 0x15#8
  | .ldStVx x => packRegByte 0xF#4 x 0x18#8
  | .addI x => packRegByte 0xF#4 x 0x1E#8
  | .ldF x => packRegByte 0xF#4 x 0x29#8
  | .ldB x => packRegByte 0xF#4 x 0x33#8
  | .ldMemVx x => packRegByte 0xF#4 x 0x55#8
  | .ldVxMem x => packRegByte 0xF#4 x 0x65#8

/-- The two bytes of an instruction, in the order memory holds them (R42). -/
def encodeBytes (i : Instr) : List Byte := [highByte (encode i), lowByte (encode i)]

/-! ### The opcode map as data (R63) -/

/-- One row of the opcode map: it selects the words with `op & mask = pattern`. -/
structure OpcodeRow where
  mnemonic : String
  mask : Word
  pattern : Word
deriving DecidableEq, Repr

/-- Whether a row selects a word (R63). -/
def rowSelects (r : OpcodeRow) (op : Word) : Bool := decide (op &&& r.mask = r.pattern)

/-- The row of R63 that an instruction is an instance of. -/
def rowOf : Instr → OpcodeRow
  | .cls => ⟨"CLS", 0xFFFF#16, 0x00E0#16⟩
  | .ret => ⟨"RET", 0xFFFF#16, 0x00EE#16⟩
  | .jp _ => ⟨"JP", 0xF000#16, 0x1000#16⟩
  | .call _ => ⟨"CALL", 0xF000#16, 0x2000#16⟩
  | .seImm _ _ => ⟨"SE_IMM", 0xF000#16, 0x3000#16⟩
  | .sneImm _ _ => ⟨"SNE_IMM", 0xF000#16, 0x4000#16⟩
  | .seReg _ _ => ⟨"SE_REG", 0xF00F#16, 0x5000#16⟩
  | .ldImm _ _ => ⟨"LD_IMM", 0xF000#16, 0x6000#16⟩
  | .addImm _ _ => ⟨"ADD_IMM", 0xF000#16, 0x7000#16⟩
  | .ldReg _ _ => ⟨"LD_REG", 0xF00F#16, 0x8000#16⟩
  | .orReg _ _ => ⟨"OR", 0xF00F#16, 0x8001#16⟩
  | .andReg _ _ => ⟨"AND", 0xF00F#16, 0x8002#16⟩
  | .xorReg _ _ => ⟨"XOR", 0xF00F#16, 0x8003#16⟩
  | .addReg _ _ => ⟨"ADD_REG", 0xF00F#16, 0x8004#16⟩
  | .sub _ _ => ⟨"SUB", 0xF00F#16, 0x8005#16⟩
  | .shr _ _ => ⟨"SHR", 0xF00F#16, 0x8006#16⟩
  | .suby _ _ => ⟨"SUBY", 0xF00F#16, 0x8007#16⟩
  | .shl _ _ => ⟨"SHL", 0xF00F#16, 0x800E#16⟩
  | .sneReg _ _ => ⟨"SNE_REG", 0xF00F#16, 0x9000#16⟩
  | .ldI _ => ⟨"LD_I", 0xF000#16, 0xA000#16⟩
  | .jpV0 _ => ⟨"JP_V0", 0xF000#16, 0xB000#16⟩
  | .rnd _ _ => ⟨"RND", 0xF000#16, 0xC000#16⟩
  | .drw _ _ _ => ⟨"DRW", 0xF000#16, 0xD000#16⟩
  | .skp _ => ⟨"SKP", 0xF0FF#16, 0xE09E#16⟩
  | .sknp _ => ⟨"SKNP", 0xF0FF#16, 0xE0A1#16⟩
  | .ldVxDt _ => ⟨"LD_VX_DT", 0xF0FF#16, 0xF007#16⟩
  | .ldVxK _ => ⟨"LD_VX_K", 0xF0FF#16, 0xF00A#16⟩
  | .ldDtVx _ => ⟨"LD_DT_VX", 0xF0FF#16, 0xF015#16⟩
  | .ldStVx _ => ⟨"LD_ST_VX", 0xF0FF#16, 0xF018#16⟩
  | .addI _ => ⟨"ADD_I", 0xF0FF#16, 0xF01E#16⟩
  | .ldF _ => ⟨"LD_F", 0xF0FF#16, 0xF029#16⟩
  | .ldB _ => ⟨"LD_B", 0xF0FF#16, 0xF033#16⟩
  | .ldMemVx _ => ⟨"LD_MEM_VX", 0xF0FF#16, 0xF055#16⟩
  | .ldVxMem _ => ⟨"LD_VX_MEM", 0xF0FF#16, 0xF065#16⟩

/-- One instance of each row, the rows 1 to 9 of the table. -/
def rowInstancesPlain : List Instr :=
  [.cls, .ret, .jp 0, .call 0, .seImm 0 0, .sneImm 0 0, .seReg 0 0, .ldImm 0 0, .addImm 0 0]

/-- The rows 10 to 18: the arithmetic group. -/
def rowInstancesAlu : List Instr :=
  [.ldReg 0 0, .orReg 0 0, .andReg 0 0, .xorReg 0 0, .addReg 0 0, .sub 0 0, .shr 0 0, .suby 0 0, .shl 0 0]

/-- The rows 19 to 25. -/
def rowInstancesMiddle : List Instr :=
  [.sneReg 0 0, .ldI 0, .jpV0 0, .rnd 0 0, .drw 0 0 0, .skp 0, .sknp 0]

/-- The rows 26 to 34: the group `F`. -/
def rowInstancesF : List Instr :=
  [.ldVxDt 0, .ldVxK 0, .ldDtVx 0, .ldStVx 0, .addI 0, .ldF 0, .ldB 0, .ldMemVx 0, .ldVxMem 0]

/-- One instance of each row, in the table's order. -/
def rowInstances : List Instr := rowInstancesPlain ++ rowInstancesAlu ++ rowInstancesMiddle ++ rowInstancesF

/-- The complete opcode map: 34 rows (R63). -/
def opcodeMap : List OpcodeRow := rowInstances.map rowOf

/-! ### The host's entry point -/

/-- The instruction word that `nbits` bits `w` of the opcode table stand for: bits above `nbits` are 0, and an
instruction has 16 bits. -/
def tableWord (nbits w : Nat) : Word := BitVec.ofNat 16 (w % 2 ^ nbits)

/-- The bytes of that word as the hardware stores them: the high byte at the lower address (R42). -/
def tableBytes (nbits w : Nat) : List Byte := [highByte (tableWord nbits w), lowByte (tableWord nbits w)]

/-- What the decoder reads from an instruction whose bits are `w`. -/
def decodeTableWord (nbits w : Nat) : Option Instr :=
  match decode (tableBytes nbits w) with
  | .instr i _ => some i
  | .illegal _ => none
  | .truncated => none

end Sys2Proof
end

