-- ==== Sys2Proof/Machine/Fetch.lean ====
section
/-! DEFINITION. The front of one `STEP` (30_encoding.md R60): the halted check, the fetch bounds, the fetch, the decode,
in the order of their priority (60_exceptions.md R207). Machine/Step.lean only runs what is answered here. -/

namespace Sys2Proof.Machine

/-- What the front of a step comes to. -/
inductive Front where
  /-- The machine is halted: no state changes (R206). -/
  | frozen
  /-- A fault before any instruction runs: fetch bounds or decode (R207). -/
  | faults (cause : HaltStatus) (info : Word)
  /-- The instruction at `pc` (R60). -/
  | runs (i : Instr)
deriving DecidableEq, Repr

/-- The word at an address, high byte first (20_memory.md R42). -/
def State.wordAt (s : State) (a : Nat) : Word := wordOfBytes (s.readByte a) (s.readByte (a + 1))

/-- The word at `pc`. -/
def State.fetchWord (s : State) : Word := s.wordAt s.pc.toNat

/-- The front of a step. The fetch itself changes no state (R60). -/
def State.front (s : State) : Front :=
  if s.halt = .running then
    match boundsFault s.pc.toNat 2 with
    | some info => .faults .memoryBoundsFault info
    | none =>
      match decode [s.readByte s.pc.toNat, s.readByte (s.pc.toNat + 1)] with
      | .instr i _ => .runs i
      | .illegal op => .faults .decodeError op
      | .truncated => .faults .decodeError s.fetchWord
  else .frozen

/-- A state from which the next step can fetch: one that is running and whose `pc` leaves room for two bytes is taken as
it is; otherwise `HALT` is cleared, and a `pc` above 0xFFE set to the program start (log entry 9). -/
def State.readyToFetch (s : State) : State :=
  let running := if s.halt = .running then s else { s with halt := .running, haltInfo := 0x0000#16 }
  if running.pc.toNat > 0xFFE then running.jump (BitVec.ofNat 16 Config.programStart) else running

/-- Store the two bytes of a word at `pc`, high byte first (R42). -/
def State.storeAtPc (s : State) (op : Word) : State := s.storeBytes s.pc.toNat [highByte op, lowByte op]

end Sys2Proof.Machine
end

