-- ==== Sys2Proof/Machine/Step.lean ====
section
/-! DEFINITION. One step of the machine, the event `STEP` (30_encoding.md R60), and where the host places an instruction
for the next step. -/

namespace Sys2Proof.Machine

/-- The event `STEP`: exactly one instruction, or one fault, or nothing while halted (R60, R206). -/
def step (s : State) : Host.Outcome State Fault Refusal :=
  match s.front with
  | .frozen => .next s
  | .faults cause info => .next (s.raise cause info)
  | .runs i => exec i s

/-- `s` with an instruction of `nbits` table bits `w` stored where the next step fetches (log entry 9). -/
def State.withFetchWord (s : State) (nbits w : Nat) : State := s.readyToFetch.storeAtPc (tableWord nbits w)

end Sys2Proof.Machine
end

