-- ==== Sys2Proof/Machine/Events.lean ====
section
/-! DEFINITION. The events of the host (00_scope.md R3, 70_reset_and_hazards.md R230 to R235, 60_exceptions.md R215,
R216) and the sequences of them the machine admits (R234). Each event is atomic and none overlaps another, so a run is a
list of events: every interleaving of `STEP`, `TICK` and the key events is one (R237, decision D23, log entry 1). -/

namespace Sys2Proof.Machine

/-- The six events the core accepts (R3, R235). A key index above 15 is no event (decision D20, log entry 19). -/
inductive Event where
  | reset
  | load (bytes : List Byte)
  | step
  | tick
  | keyDown (k : Key)
  | keyUp (k : Key)
deriving DecidableEq, Repr

/-- `RESET` (R230): every item of the spec's state to its reset value, whatever the state was. The count of random bytes
consumed is an input's position and not the core's state: it goes on, so that no two draws are tied (log entry 2), and the
parameters are fixed for the machine (R5, log entry 24). -/
def resetEvent (s : State) : State := { State.resetWith s.params with draws := s.draws }

/-- An event that changes the state only while the machine runs (R206). -/
def State.unlessHalted (s : State) (go : State) : State := if s.halt = .running then go else s

/-- `LOAD(bytes)` (R233): byte `i` of the image to `0x200 + i`, nothing else. -/
def loadEvent (bytes : List Byte) (s : State) : State :=
  s.unlessHalted (s.storeBytes Config.programStart bytes)

/-- A timer under `TICK`: down by 1, floored at 0 (R17, R215). -/
def countDown (t : Byte) : Byte := if t.toNat > 0 then t - 1#8 else t

/-- `TICK` (R215): both timers, nothing else. -/
def tickEvent (s : State) : State := s.unlessHalted ((s.setDt (countDown s.dt)).setSt (countDown s.st))

/-- `KEY[k] <- down`, nothing else. -/
def State.setKey (s : State) (k : Key) (down : Bool) : State := { s with key := s.key.set k down }

/-- `KEY_DOWN(k)` (R216). -/
def keyDownEvent (k : Key) (s : State) : State := s.unlessHalted (s.setKey k true)

/-- `KEY_UP(k)` (R216). -/
def keyUpEvent (k : Key) (s : State) : State := s.unlessHalted (s.setKey k false)

/-- One event. An image that does not fit is no event of the machine and is refused (R233, decision D16). -/
def applyEvent (e : Event) (s : State) : Answer :=
  match e with
  | .reset => .next (resetEvent s)
  | .load bytes => if imageFits bytes then .next (loadEvent bytes s) else .refused .imageTooLong
  | .step => step s
  | .tick => .next (tickEvent s)
  | .keyDown k => .next (keyDownEvent k s)
  | .keyUp k => .next (keyUpEvent k s)

/-! ### Boot order (R234) -/

/-- How far the host has brought the machine up. -/
inductive BootPhase where
  /-- Before the first `RESET`: there is no state (U16). -/
  | off
  /-- After `RESET`, before `LOAD`. -/
  | ready
  /-- After the one `LOAD`. -/
  | loaded
deriving DecidableEq, Repr

/-- The phase after an event, none where the event is out of order: the first event is `RESET`; one `LOAD` follows; only
then `STEP`; `TICK` and the key events are allowed from `RESET` on (R234, decision D21). -/
def bootNext : BootPhase → Event → Option BootPhase
  | _, .reset => some .ready
  | .ready, .load _ => some .loaded
  | .loaded, .step => some .loaded
  | .ready, .tick => some .ready
  | .loaded, .tick => some .loaded
  | .ready, .keyDown _ => some .ready
  | .loaded, .keyDown _ => some .loaded
  | .ready, .keyUp _ => some .ready
  | .loaded, .keyUp _ => some .loaded
  | .off, .load _ => none
  | .off, .step => none
  | .off, .tick => none
  | .off, .keyDown _ => none
  | .off, .keyUp _ => none
  | .ready, .step => none
  | .loaded, .load _ => none

/-- A sequence of events that respects the boot order from a phase on. -/
def bootLegal : BootPhase → List Event → Bool
  | _, [] => true
  | p, e :: es =>
    match bootNext p e with
    | some q => bootLegal q es
    | none => false

/-- A run from a phase and a state: the events one at a time, refused at the first that is out of the boot order. -/
def runEvents : BootPhase → List Event → State → Answer
  | _, [], s => .next s
  | p, e :: es, s =>
    match bootNext p e with
    | none => .refused .bootOrder
    | some q =>
      match applyEvent e s with
      | .next t => runEvents q es t
      | .fault r => .fault r
      | .refused r => .refused r

/-! ### What the host may read between events (R3, R217) -/

/-- The outputs: `FB`, `ST`, `HALT`, `HALT_INFO`. Reading them has no effect. -/
structure Outputs where
  fb : Screen
  st : Byte
  halt : BitVec 3
  haltInfo : Word
deriving DecidableEq, Repr

/-- The outputs of a state. -/
def State.outputs (s : State) : Outputs := ⟨s.fb, s.st, s.halt.code, s.haltInfo⟩

/-- `sound_active = (ST != 0)` (10_state.md R19, decision D15): offered for convenience, no rule depends on it. -/
def State.soundActive (s : State) : Bool := decide (s.st ≠ 0x00#8)

end Sys2Proof.Machine
end

