-- ==== Sys2Proof/Safety.lean ====
section
/-! DEFINITION. The terms claims use: what a safe run is, when a run has ended, the invariant of the machine
(10_state.md R26), and the parts of the state that a frame speaks of. -/

namespace Sys2Proof.Machine

/-- The machine has not halted. A state with `HALT != 0` is a fault state, never a successful end (60_exceptions.md R205). -/
abbrev State.running (s : State) : Prop := s.halt = .running

/-- A run is safe when it answers a next state that has not halted. -/
def Safe (o : Answer) : Prop := ∃ t, o = .next t ∧ t.running

/-- The RECOMMENDED end of a run (70_reset_and_hazards.md R238, decision D17, log entry 20): running, with the word at `pc`
a jump to `pc` itself. `END_OF_RUN` is open; a claim may take another. -/
def State.endOfRun (s : State) : Prop :=
  s.running ∧ s.pc.toNat ≤ 0xFFE ∧ ∃ nnn : Addr12, decodeWord s.fetchWord = some (.jp nnn) ∧ nnn.toNat = s.pc.toNat

/-- The invariant of R26, with the canonical form of memory: what every state reachable from reset satisfies. -/
structure State.Inv (s : State) : Prop where
  /-- Memory is canonical, so every listed address is at most 0xFFF. -/
  mem_wf : s.memWf = true
  /-- `SP <= STACK_DEPTH`. -/
  sp_le : s.sp ≤ s.params.stackDepth
  /-- Every live entry is a `pc` at which a fetch succeeded. -/
  entries : ∀ w ∈ s.stack, w.toNat ≤ 0xFFE
  /-- `pc <= 0x10FE`. -/
  pc_le : s.pc.toNat ≤ 0x10FE
  /-- While running, `HALT_INFO` holds its reset value (R200). -/
  info_zero : s.running → s.haltInfo = 0x0000#16

/-- The parts of the state, for frames. -/
inductive Part where
  | memory
  | registers
  | index
  | counter
  | callStack
  | delayTimer
  | soundTimer
  | keys
  | display
  | haltStatus
  | haltInfo
  | draws
  | params
deriving DecidableEq, Repr

/-- A part is the same in two states. Memory is compared through the read of one byte, at every address. -/
def samePart (s t : State) : Part → Prop
  | .memory => ∀ a, t.readByte a = s.readByte a
  | .registers => ∀ k, t.reg k = s.reg k
  | .index => t.i = s.i
  | .counter => t.pc = s.pc
  | .callStack => t.stack = s.stack
  | .delayTimer => t.dt = s.dt
  | .soundTimer => t.st = s.st
  | .keys => t.key = s.key
  | .display => t.fb = s.fb
  | .haltStatus => t.halt = s.halt
  | .haltInfo => t.haltInfo = s.haltInfo
  | .draws => t.draws = s.draws
  | .params => t.params = s.params

/-- Every part but the named ones is the same in `t` as in `s`. -/
def OnlyChanges (parts : List Part) (s t : State) : Prop := ∀ p, p ∉ parts → samePart s t p

/-- Every general register outside the named ones is the same in `t` as in `s`. -/
def OtherRegs (changed : List Reg) (s t : State) : Prop := ∀ k, k ∉ changed → t.reg k = s.reg k

/-- Every byte of memory outside `count` bytes from `base` reads the same in `t` as in `s`. -/
def OtherBytes (base count : Nat) (s t : State) : Prop :=
  ∀ a, a < base ∨ base + count ≤ a → t.readByte a = s.readByte a

/-- `t` is `s` after the entry of a fault (R205): `HALT` and `HALT_INFO` written, every other part the same. -/
def FaultEntry (cause : HaltStatus) (info : Word) (s t : State) : Prop :=
  t.halt = cause ∧ t.haltInfo = info ∧ OnlyChanges [.haltStatus, .haltInfo] s t

end Sys2Proof.Machine
end

