-- ==== Sys2Proof/Certificates/Slice0/Obligations.lean ====
section
/-! DEFINITION. The statements for the provers. Each docstring names the rule or section of the spec it formalises; where
a clause rests on a decision of the spec (D<n>, its own choice) or on a choice of the model, it names the log entry. A state
carries the machine's parameters, so each statement holds for every choice of them (00_scope.md section 5, log entry 24);
`s.pcPlus k` is `pc + k`, the exact sum wherever an instruction can be fetched (R14). -/

namespace Sys2Proof.Machine

/-- The registers that R12's table says an instruction may write. -/
def writtenRegs : Instr → List Reg
  | .ldImm x _ | .addImm x _ | .rnd x _ => [x]
  | .ldReg x _ | .orReg x _ | .andReg x _ | .xorReg x _ => [x]
  | .addReg x _ | .sub x _ | .shr x _ | .shl x _ => [x, VF]
  | .suby _ y => [y, VF]
  | .drw _ _ _ => [VF]
  | .ldVxDt x | .ldVxK x => [x]
  | .ldVxMem x => (List.finRange 16).filter (· ≤ x)
  | .cls | .ret | .jp _ | .call _ | .seImm _ _ | .sneImm _ _ | .seReg _ _ | .sneReg _ _ => []
  | .ldI _ | .jpV0 _ | .skp _ | .sknp _ => []
  | .ldDtVx _ | .ldStVx _ | .addI _ | .ldF _ | .ldB _ | .ldMemVx _ => []

/-- The one way R14 lets an instruction that does not fault move `pc`. -/
def pcMoves (i : Instr) (s t : State) : Prop :=
  match i with
  | .jp nnn | .call nnn => t.pc.toNat = nnn.toNat
  | .jpV0 nnn => t.pc.toNat = nnn.toNat + (s.reg V0).toNat
  | .ret => (s.sp = 0 ∧ t.pc = s.pcPlus 2#16) ∨ (∃ w, s.stackEntry (s.sp - 1) = some w ∧
      t.pc = s.params.cutPc (w + 2#16))
  | .seImm _ _ | .sneImm _ _ | .seReg _ _ | .sneReg _ _ | .skp _ | .sknp _ => t.pc = s.pcPlus 2#16 ∨ t.pc = s.pcPlus 4#16
  | .ldVxK _ => t.pc = s.pc ∨ t.pc = s.pcPlus 2#16
  | .cls | .ldImm _ _ | .addImm _ _ | .ldReg _ _ | .orReg _ _ | .andReg _ _ | .xorReg _ _ => t.pc = s.pcPlus 2#16
  | .addReg _ _ | .sub _ _ | .shr _ _ | .suby _ _ | .shl _ _ | .ldI _ | .rnd _ _ | .drw _ _ _ => t.pc = s.pcPlus 2#16
  | .ldVxDt _ | .ldDtVx _ | .ldStVx _ | .addI _ | .ldF _ | .ldB _ | .ldMemVx _ | .ldVxMem _ => t.pc = s.pcPlus 2#16

/-- The execute-time fault R207 gives an instruction, if it has one. -/
def executeFault : Instr → Option HaltStatus
  | .call _ => some .stackOverflow
  | .drw _ _ _ | .ldB _ | .ldMemVx _ | .ldVxMem _ => some .memoryBoundsFault
  | .skp _ | .sknp _ => some .keyIndexFault
  | .cls | .ret | .jp _ | .seImm _ _ | .sneImm _ _ | .seReg _ _ | .sneReg _ _ | .ldI _ | .jpV0 _ | .rnd _ _ => none
  | .ldImm _ _ | .addImm _ _ | .ldReg _ _ | .orReg _ _ | .andReg _ _ | .xorReg _ _ => none
  | .addReg _ _ | .sub _ _ | .shr _ _ | .suby _ _ | .shl _ _ => none
  | .ldVxDt _ | .ldVxK _ | .ldDtVx _ | .ldStVx _ | .addI _ | .ldF _ => none

/-- Whether the sprite of `Dxyn`, taken from the state before it, covers display cell `(r, c)` with a 1: the cell's
distance from the origin, wrapping, is inside the sprite and that bit of its byte, bit 7 leftmost, is 1 (R151). -/
def spriteCovers (s : State) (x y : Reg) (n : Nibble) (r : Fin 32) (c : Fin 64) : Prop :=
  let down := (r.val + 32 - (s.reg y).toNat % 32) % 32
  let right := (c.val + 64 - (s.reg x).toNat % 64) % 64
  down < n.toNat ∧ right < 8 ∧ (s.readByte (s.i.toNat + down)).getLsbD (7 - right) = true

/-- The byte at an address after `count` bytes are stored from `I` on, byte `j` of them `stored j`. -/
def overlaid (s : State) (count : Nat) (stored : Nat → Byte) (a : Nat) : Byte :=
  if s.i.toNat ≤ a ∧ a < s.i.toNat + count then stored (a - s.i.toNat) else s.readByte a

/-- `t`, the state after one instruction of `s`, is at the next instruction, fetches there the two given bytes, high byte
first, and runs the instruction they decode to. -/
def fetchSees (s t : State) (byteAt : Nat → Byte) : Prop :=
  t.pc = s.pcPlus 2#16 ∧ t.fetchWord = byteAt t.pc.toNat ++ byteAt (t.pc.toNat + 1) ∧
  ∀ i, t.pc.toNat ≤ 0xFFE → decodeWord (byteAt t.pc.toNat ++ byteAt (t.pc.toNat + 1)) = some i → step t = exec i t

/-- The same state of a machine whose `PC_BITS` is `13 + n` (R5). -/
def withPcBitsBeyond13 (s : State) (n : Nat) : State := { s with params := { s.params with pcBitsBeyond13 := n } }

end Sys2Proof.Machine

open Sys2Proof Sys2Proof.Machine

/-! ### Encoding and decoding -/

/-- Decoding the two bytes of any instruction gives it back and leaves the bytes that follow (30_encoding.md section 2). -/
def Obligations.DecodeOfEncodeGivesTheInstruction : Prop :=
  ∀ (i : Instr) (rest : List Byte), decode (encodeBytes i ++ rest) = .instr i rest

/-- No bit of a legal word is lost: encoding what it decodes to gives the word back (30_encoding.md sections 3 and 4).
The unused field of `8xyE` is kept by the model's choice (log entry 25); exact matching is the spec's (decision D12, log
entry 15). -/
def Obligations.EncodeOfDecodeGivesTheWord : Prop := ∀ (op : Word) (i : Instr), decodeWord op = some i → encode i = op

/-- The decoder agrees with the opcode map's masks and matches, at most one of whose 34 rows selects any word
(30_encoding.md section 4). -/
def Obligations.DecoderAgreesWithTheOpcodeMap : Prop :=
  opcodeMap.length = 34 ∧
  (∀ op i, decodeWord op = some i → rowOf i ∈ opcodeMap ∧ rowSelects (rowOf i) op = true) ∧
  (∀ op r, r ∈ opcodeMap → rowSelects r op = true → ∃ i, decodeWord op = some i ∧ rowOf i = r) ∧
  (∀ op r r', r ∈ opcodeMap → r' ∈ opcodeMap → rowSelects r op = true → rowSelects r' op = true → r = r')

/-- The words the decoder refuses are exactly the illegal words of the table of 30_encoding.md section 5. Exact matching is
the spec's choice (decision D12, log entry 15). -/
def Obligations.RefusedWordsAreTheIllegalOnes : Prop := ∀ op : Word, decodeWord op = none ↔ legalWord op = false

/-- Words written out from the formats of 30_encoding.md section 2 decode to the instructions they stand for, and words
at the edge of a pattern do not decode (95_test_vectors.md section 2.8; decision D12, log entry 15). -/
def Obligations.SampleWordsDecodeAsWritten : Prop :=
  decodeWord 0b0000000011101110#16 = some .ret ∧
  decodeWord 0b0010001100000000#16 = some (.call 0x300#12) ∧
  decodeWord 0b0111001100001010#16 = some (.addImm 3 0x0A#8) ∧
  decodeWord 0b1000000100100111#16 = some (.suby 1 2) ∧
  decodeWord 0b1101000100100101#16 = some (.drw 1 2 5#4) ∧
  decodeWord 0b1110001010100001#16 = some (.sknp 2) ∧
  decodeWord 0b1111001001010101#16 = some (.ldMemVx 2) ∧
  decodeWord 0b0101000000010001#16 = none ∧ decodeWord 0x0000#16 = none

/-! ### The step, faults and reset -/

/-- When the bytes at `pc` decode to an instruction, the step is `exec` of it, and nothing is done around it
(30_encoding.md section 1). -/
def Obligations.StepRunsTheDecodedInstruction : Prop :=
  ∀ (s : State) (i : Instr) (rest : List Byte), s.running → s.pc.toNat ≤ 0xFFE →
    decode [s.readByte s.pc.toNat, s.readByte (s.pc.toNat + 1)] = .instr i rest → step s = exec i s

/-- The whole of one `STEP` (30_encoding.md section 1): nothing while halted; the bounds fault of the fetch; the decode
fault, naming the word; or the instruction of the row that selects the word. The halted state and the bounds fault are
the spec's choice (decisions D5 and D7, log entries 13 and 6). -/
def Obligations.StepIsFetchDecodeExecute : Prop :=
  ∀ s : State,
    let op : Word := s.readByte s.pc.toNat ++ s.readByte (s.pc.toNat + 1)
    (¬ s.running → step s = .next s) ∧
    (s.running → s.pc.toNat > 0xFFE → ∃ t, step s = .next t ∧
      FaultEntry .memoryBoundsFault (BitVec.ofNat 16 (max s.pc.toNat 0x1000)) s t) ∧
    (s.running → s.pc.toNat ≤ 0xFFE → (∀ r ∈ opcodeMap, op &&& r.mask ≠ r.pattern) →
      ∃ t, step s = .next t ∧ FaultEntry .decodeError op s t) ∧
    (s.running → s.pc.toNat ≤ 0xFFE → ∀ r ∈ opcodeMap, op &&& r.mask = r.pattern →
      ∃ i, decodeWord op = some i ∧ rowOf i = r ∧ encode i = op ∧ step s = exec i s)

/-- Every step of every state answers a next state: the model stops on nothing (60_exceptions.md sections 1 and 2). -/
def Obligations.EveryStepAnswersANextState : Prop := ∀ s : State, ∃ t, step s = .next t

/-- A step that halts the machine changes nothing but `HALT` and `HALT_INFO` (60_exceptions.md section 2; decision D7,
log entry 6). -/
def Obligations.FaultsArePrecise : Prop :=
  ∀ s t : State, s.running → step s = .next t → ¬ t.running → FaultEntry t.halt t.haltInfo s t

/-- An instruction that halts the machine does so by the one execute-time fault the spec gives it, never by another, and
an instruction without one never does (60_exceptions.md section 2; decision D22, log entry 6). -/
def Obligations.OnlyTheNamedInstructionsFault : Prop :=
  ∀ (i : Instr) (s t : State), s.running → exec i s = .next t → ¬ t.running →
    executeFault i = some t.halt ∧ t.pc = s.pc

/-- While halted every event but `RESET` leaves the whole state as it is, and `RESET` leaves the halted state
(60_exceptions.md section 2; decision D7, log entry 6). -/
def Obligations.HaltedMachineIsFrozenUntilReset : Prop :=
  ∀ s : State, ¬ s.running →
    (∀ e, e ≠ .reset → (∀ bytes, e = .load bytes → bytes.length ≤ 3584) → applyEvent e s = .next s) ∧
    (∃ t, applyEvent .reset s = .next t ∧ t.running)

/-- What reset leaves in every item of the spec's state, with every choice of the parameters (10_state.md section 8;
decision D19), and the defaults that `State.reset` takes for `PC_BITS` and `STACK_DEPTH` (00_scope.md section 5; decisions
D2 and D4, log entries 5 and 3). -/
def Obligations.ResetLeavesTheStatedValues : Prop :=
  (∀ p : Params,
    let r := State.resetWith p
    (∀ a, a ≤ 79 → r.readByte a = p.font.getD a 0) ∧ (∀ a, 80 ≤ a → a ≤ 4095 → r.readByte a = 0x00#8) ∧
    (∀ k, r.reg k = 0x00#8) ∧ r.i = 0x0000#16 ∧ r.pc = 0x0200#16 ∧ r.sp = 0 ∧ r.dt = 0x00#8 ∧ r.st = 0x00#8 ∧
    (∀ k, r.keyIsDown k = false) ∧ (∀ row col, r.fb.cell row col = false) ∧
    r.halt.code = 0#3 ∧ r.haltInfo = 0x0000#16 ∧ r.params = p) ∧
  State.reset = State.resetWith State.reset.params ∧ State.reset.params.pcBits = 16 ∧
  State.reset.params.stackDepth = 16

/-- With every choice of the parameters `FONT` has 80 bytes and glyph A, the one glyph the document gives, stands at address
50 after reset (20_memory.md section 6, 42_index_memory.md section 2). The other glyphs are a parameter (decision D10, log
entry 4). -/
def Obligations.FontHoldsGlyphA : Prop :=
  ∀ p : Params, p.font.length = 80 ∧
    (State.resetWith p).readBytes 50 5 = [0xF0#8, 0x90#8, 0xF0#8, 0x90#8, 0x90#8]

/-- `RESET` from any state, halted or not, gives the reset state of the machine's parameters and nothing else survives it
but the count of random bytes the host has supplied, the model's own (70_reset_and_hazards.md section 1; decision D19, log
entries 2 and 24). -/
def Obligations.ResetFromAnyStateForgetsIt : Prop :=
  ∀ s : State, ∃ t, applyEvent .reset s = .next t ∧ OnlyChanges [.draws] (State.resetWith s.params) t ∧
    t.mem = (State.resetWith s.params).mem ∧ t.draws = s.draws

/-! ### Invariants -/

/-- Every step keeps the invariant of 10_state.md section 10, with the canonical form of memory (log entry 8), at every width
of `pc` from 13 bits up and every capacity of the stack: both are parameters (decisions D2 and D4, log entries 5, 3 and
24). -/
def Obligations.EveryStepKeepsInv : Prop := ∀ s t : State, s.Inv → step s = .next t → t.Inv

/-- The invariant holds at reset, with every choice of the parameters (10_state.md sections 8 and 10; log entry 24). -/
def Obligations.ResetHasInv : Prop := ∀ p : Params, (State.resetWith p).Inv

/-- Every run of host events from a state that has the invariant, in any interleaving, keeps it (10_state.md section 10,
70_reset_and_hazards.md section 2). -/
def Obligations.EveryRunOfEventsKeepsInv : Prop :=
  ∀ (p : BootPhase) (es : List Event) (s t : State), s.Inv → runEvents p es s = .next t → t.Inv

/-- Every sequence of events in the boot order, with images that fit, runs to its end from any state
(70_reset_and_hazards.md section 2; decisions D16 and D21, log entry 10). That a run goes on through a step that faults is
the spec's halted state (decision D7, log entry 6). -/
def Obligations.EveryLegalRunCompletes : Prop :=
  ∀ (p : BootPhase) (es : List Event) (s : State), bootLegal p es = true →
    (∀ bytes, Event.load bytes ∈ es → bytes.length ≤ 3584) → ∃ t, runEvents p es s = .next t

/-- Every instruction keeps memory in its canonical form (the model's form of `MEM`, log entry 8). -/
def Obligations.EveryInstructionKeepsMemoryCanonical : Prop :=
  ∀ (i : Instr) (s t : State), s.memWf = true → exec i s = .next t → t.memWf = true

/-- Canonical memories that read alike at every address are the same data (the model's form of `MEM`, log entry 8). -/
def Obligations.CanonicalMemoriesThatReadAlikeAreEqual : Prop :=
  ∀ (font : List Byte) (m m' : Memory), m.wf font = true → m'.wf font = true →
    (∀ a, m.read font a = m'.read font a) → m = m'

/-! ### Whole-machine rules -/

/-- Each item of state is written only by the instructions the table of 10_state.md section 1 names: no instruction writes a
key flag, `pc` moves unless the instruction halts, `HALT` and `HALT_INFO` are written by the execute-time faults alone
(decisions D7 and D22, log entry 6), and the parameters and, but for `Cxnn`, the count of random bytes, both the model's
own, by none (log entries 24 and 2). How the registers and `pc` change is stated in
`RegistersAreWrittenOnlyAsTheTableSays` and `CounterMovesInTheStatedWay`. -/
def Obligations.StateIsWrittenOnlyByTheNamedInstructions : Prop :=
  ∀ (i : Instr) (s t : State), exec i s = .next t →
    ((∀ x, i ≠ .ldB x ∧ i ≠ .ldMemVx x) → t.mem = s.mem) ∧
    (∀ k, k ∉ writtenRegs i → t.reg k = s.reg k) ∧
    ((∀ n x, i ≠ .ldI n ∧ i ≠ .addI x ∧ i ≠ .ldF x ∧ i ≠ .ldMemVx x ∧ i ≠ .ldVxMem x) → t.i = s.i) ∧
    (s.running → ¬ t.running → t.pc = s.pc) ∧
    ((∀ n, i ≠ .call n ∧ i ≠ .ret) → t.stack = s.stack) ∧
    ((∀ x, i ≠ .ldDtVx x) → t.dt = s.dt) ∧ ((∀ x, i ≠ .ldStVx x) → t.st = s.st) ∧
    t.key = s.key ∧ ((∀ x y n, i ≠ .cls ∧ i ≠ .drw x y n) → t.fb = s.fb) ∧
    (executeFault i = none → t.halt = s.halt ∧ t.haltInfo = s.haltInfo) ∧
    ((∀ x nn, i ≠ .rnd x nn) → t.draws = s.draws) ∧ t.params = s.params

/-- Every instruction leaves the general registers outside its row of the table of 10_state.md section 2 as they were; in
particular `VF` changes only in the six flag-writing instructions or as the named destination (section 4). -/
def Obligations.RegistersAreWrittenOnlyAsTheTableSays : Prop :=
  ∀ (i : Instr) (s t : State), exec i s = .next t → OtherRegs (writtenRegs i) s t

/-- Every instruction moves `pc` in the one way 10_state.md section 3 gives it, and an instruction that faults leaves it
(decisions D2 and D7, log entries 5 and 6). -/
def Obligations.CounterMovesInTheStatedWay : Prop :=
  ∀ (i : Instr) (s t : State), s.running → exec i s = .next t →
    (t.running → pcMoves i s t) ∧ (¬ t.running → t.pc = s.pc)

/-- A store is seen by the very next fetch (20_memory.md section 8): after `Fx55` or `Fx33` with its bytes in range, the
word fetched at the new `pc` is made, high byte first, of the bytes just stored where it overlaps them, by one byte or by
both, and of the bytes from before elsewhere; and if that word decodes, the next step runs it. That bytes out of range
fault is the spec's choice (decision D5, log entry 13). Memory is canonical, an invariant of its own. -/
def Obligations.NextFetchSeesTheStore : Prop :=
  ∀ (x : Reg) (s t : State), s.memWf = true → s.running →
    (s.i.toNat + x.val ≤ 0xFFF → exec (.ldMemVx x) s = .next t →
      fetchSees s t (overlaid s (x.val + 1) fun j => s.reg (Fin.ofNat 16 j))) ∧
    (s.i.toNat + 2 ≤ 0xFFF → exec (.ldB x) s = .next t →
      fetchSees s t (overlaid s 3 fun j =>
        BitVec.ofNat 8 (if j = 0 then (s.reg x).toNat / 100 else if j = 1 then (s.reg x).toNat / 10 % 10
          else (s.reg x).toNat % 10)))

/-- From a state at the recommended end of a run, a jump to itself, a step changes nothing (70_reset_and_hazards.md
section 6; decision D17, log entry 20). -/
def Obligations.SelfJumpIsAFixedPoint : Prop := ∀ s : State, s.endOfRun → step s = .next s

/-- The parameters are fixed for the machine: no event of a run changes them (00_scope.md section 5; log entry 24). -/
def Obligations.ParametersAreFixedForARun : Prop :=
  ∀ (p : BootPhase) (es : List Event) (s t : State), runEvents p es s = .next t → t.params = s.params

/-- Every width of `pc` from 13 bits up gives identical behaviour: a run from a state that has the invariant, on a machine
of another width, ends in the same state but for the width (93_implementation_defined.md U11; decision D2, log entries 5
and 24). -/
def Obligations.EveryCounterWidthBehavesAlike : Prop :=
  ∀ (p : BootPhase) (es : List Event) (s t : State) (n : Nat), s.Inv → runEvents p es s = .next t →
    runEvents p es (withPcBitsBeyond13 s n) = .next (withPcBitsBeyond13 t n)

/-! ### Control flow -/

/-- `00EE` (R101): with an entry on the stack the newest is popped and `pc` is that entry plus 2; with none only
`pc + 2`; nothing else changes. -/
def Obligations.RetPopsThenAdvances : Prop :=
  decodeWord 0x00EE#16 = some .ret ∧
  ∀ s : State, ∃ t, exec .ret s = .next t ∧ OnlyChanges [.callStack, .counter] s t ∧
    (s.sp = 0 → t.sp = 0 ∧ t.pc = s.pcPlus 2#16) ∧
    (s.sp > 0 → t.sp = s.sp - 1 ∧ (∃ w, s.stackEntry (s.sp - 1) = some w ∧ t.pc = s.params.cutPc (w + 2#16)) ∧
      ∀ j, j < t.sp → t.stackEntry j = s.stackEntry j)

/-- `1nnn` (40_control_flow.md section 2): `pc` is the zero-extended address; nothing else changes, so a jump to itself
changes nothing. From a running state the one target above 0xFFE makes the next step the bounds fault of the fetch
(decisions D5 and D7, log entries 13 and 6). -/
def Obligations.JpSetsTheCounter : Prop :=
  ∀ nnn : Addr12, decodeWord (0x1#4 ++ nnn) = some (.jp nnn) ∧
    ∀ s : State, ∃ t, exec (.jp nnn) s = .next t ∧ t.pc.toNat = nnn.toNat ∧ OnlyChanges [.counter] s t ∧
      (s.running → nnn = 0xFFF#12 → ∃ u, step t = .next u ∧ FaultEntry .memoryBoundsFault 0x1000#16 t u)

/-- `2nnn` (40_control_flow.md section 2): unless the stack is full the call's own address is pushed and `pc` is the target;
on a full stack it is the entry of `StackOverflow`, which records `pc`. The capacity is the machine's parameter, whatever
it is, and the fault is the spec's choice (decision D4, log entry 3). -/
def Obligations.CallPushesItsOwnAddress : Prop :=
  ∀ (nnn : Addr12) (s : State),
    (s.sp ≠ s.params.stackDepth → ∃ t, exec (.call nnn) s = .next t ∧ t.pc.toNat = nnn.toNat ∧ t.sp = s.sp + 1 ∧
      t.stackEntry s.sp = some s.pc ∧ (∀ j, j < s.sp → t.stackEntry j = s.stackEntry j) ∧
      OnlyChanges [.callStack, .counter] s t) ∧
    (s.sp = s.params.stackDepth → ∃ t, exec (.call nnn) s = .next t ∧ FaultEntry .stackOverflow s.pc s t)

/-- Call and return round-trip exactly: a `00EE` executed on the same machine with the stack as the `2nnn` left it gives the
address after the `2nnn` and the stack from before it (40_control_flow.md section 2). It holds at every capacity `depth` of
the stack (decision D4, log entry 3). -/
def Obligations.CallThenReturnRoundTrips : Prop :=
  (∀ (nnn : Addr12) (s u callee : State), s.running → exec (.call nnn) s = .next u → u.running →
    callee.stack = u.stack → callee.params = s.params →
      ∃ t, exec .ret callee = .next t ∧ t.pc = s.pcPlus 2#16 ∧ t.stack = s.stack) ∧
  (∀ (depth : Nat) (target : Word) (s : State), s.sp < depth →
    (s.callWithin depth target).popAndAdvance.pc = s.pcPlus 2#16 ∧
    (s.callWithin depth target).popAndAdvance.stack = s.stack)

/-- `Bnnn` (40_control_flow.md section 2): `pc` is the exact sum of the address and `V[0]`, not masked to 12 bits; nothing
else changes. From a running state a sum above 0xFFE makes the next step the bounds fault of the fetch (decisions D5 and
D7, log entries 13 and 6). -/
def Obligations.JpV0AddsWithoutMask : Prop :=
  ∀ nnn : Addr12, decodeWord (0xB#4 ++ nnn) = some (.jpV0 nnn) ∧
    ∀ s : State, ∃ t, exec (.jpV0 nnn) s = .next t ∧ t.pc.toNat = nnn.toNat + (s.reg 0).toNat ∧
      OnlyChanges [.counter] s t ∧
      (s.running → t.pc.toNat > 0xFFE → ∃ u, step t = .next u ∧
        FaultEntry .memoryBoundsFault (BitVec.ofNat 16 (max t.pc.toNat 0x1000)) t u)

/-- `3xnn` and `4xnn` (R105, R106): `pc + 4` or `pc + 2` by the comparison with the immediate, one the complement of the
other; nothing else changes. -/
def Obligations.SkipsOnAnImmediate : Prop :=
  ∀ (x : Reg) (nn : Byte),
    decodeWord (0x3#4 ++ nibbleOfReg x ++ nn) = some (.seImm x nn) ∧
    decodeWord (0x4#4 ++ nibbleOfReg x ++ nn) = some (.sneImm x nn) ∧
    ∀ s : State, ∃ t u, exec (.seImm x nn) s = .next t ∧ exec (.sneImm x nn) s = .next u ∧
      OnlyChanges [.counter] s t ∧ OnlyChanges [.counter] s u ∧
      (s.reg x = nn → t.pc = s.pcPlus 4#16 ∧ u.pc = s.pcPlus 2#16) ∧
      (s.reg x ≠ nn → t.pc = s.pcPlus 2#16 ∧ u.pc = s.pcPlus 4#16)

/-- `5xy0` and `9xy0` (40_control_flow.md section 3): `pc + 4` or `pc + 2` by the comparison of two registers, one the
complement of the other; nothing else changes. With another low digit the word does not decode: exact matching is the
spec's choice (decision D12, log entry 15). -/
def Obligations.SkipsOnTwoRegisters : Prop :=
  ∀ x y : Reg,
    decodeWord (0x5#4 ++ nibbleOfReg x ++ nibbleOfReg y ++ 0x0#4) = some (.seReg x y) ∧
    decodeWord (0x9#4 ++ nibbleOfReg x ++ nibbleOfReg y ++ 0x0#4) = some (.sneReg x y) ∧
    (∀ n : Nibble, n ≠ 0 → decodeWord (0x5#4 ++ nibbleOfReg x ++ nibbleOfReg y ++ n) = none ∧
      decodeWord (0x9#4 ++ nibbleOfReg x ++ nibbleOfReg y ++ n) = none) ∧
    ∀ s : State, ∃ t u, exec (.seReg x y) s = .next t ∧ exec (.sneReg x y) s = .next u ∧
      OnlyChanges [.counter] s t ∧ OnlyChanges [.counter] s u ∧
      (s.reg x = s.reg y → t.pc = s.pcPlus 4#16 ∧ u.pc = s.pcPlus 2#16) ∧
      (s.reg x ≠ s.reg y → t.pc = s.pcPlus 2#16 ∧ u.pc = s.pcPlus 4#16)

/-! ### Loads, arithmetic, logic, shifts, random -/

/-- `6xnn` and `7xnn` (R120, R121): the immediate, and the sum modulo 256 with no flag, into `V[x]`; `pc + 2`; no other
register and nothing else changes. -/
def Obligations.LoadsAndAddsAnImmediate : Prop :=
  ∀ (x : Reg) (nn : Byte),
    decodeWord (0x6#4 ++ nibbleOfReg x ++ nn) = some (.ldImm x nn) ∧
    decodeWord (0x7#4 ++ nibbleOfReg x ++ nn) = some (.addImm x nn) ∧
    ∀ s : State, ∃ t u, exec (.ldImm x nn) s = .next t ∧ exec (.addImm x nn) s = .next u ∧
      t.reg x = nn ∧ (u.reg x).toNat = ((s.reg x).toNat + nn.toNat) % 256 ∧
      OtherRegs [x] s t ∧ OtherRegs [x] s u ∧ t.pc = s.pcPlus 2#16 ∧ u.pc = s.pcPlus 2#16 ∧
      OnlyChanges [.registers, .counter] s t ∧ OnlyChanges [.registers, .counter] s u

/-- `8xy0` to `8xy3` (R122, R123, R124, R125): the copy, and bit by bit the or, the and, the exclusive or, into `V[x]`;
`pc + 2`; no flag, no other register and nothing else changes. -/
def Obligations.CopiesAndCombinesRegisters : Prop :=
  ∀ x y : Reg,
    decodeWord (0x8#4 ++ nibbleOfReg x ++ nibbleOfReg y ++ 0x0#4) = some (.ldReg x y) ∧
    decodeWord (0x8#4 ++ nibbleOfReg x ++ nibbleOfReg y ++ 0x1#4) = some (.orReg x y) ∧
    decodeWord (0x8#4 ++ nibbleOfReg x ++ nibbleOfReg y ++ 0x2#4) = some (.andReg x y) ∧
    decodeWord (0x8#4 ++ nibbleOfReg x ++ nibbleOfReg y ++ 0x3#4) = some (.xorReg x y) ∧
    ∀ s : State, ∃ t u v w, exec (.ldReg x y) s = .next t ∧ exec (.orReg x y) s = .next u ∧
      exec (.andReg x y) s = .next v ∧ exec (.xorReg x y) s = .next w ∧ t.reg x = s.reg y ∧
      (∀ j, (u.reg x).getLsbD j = ((s.reg x).getLsbD j || (s.reg y).getLsbD j)) ∧
      (∀ j, (v.reg x).getLsbD j = ((s.reg x).getLsbD j && (s.reg y).getLsbD j)) ∧
      (∀ j, (w.reg x).getLsbD j = ((s.reg x).getLsbD j ^^ (s.reg y).getLsbD j)) ∧
      ∀ r ∈ [t, u, v, w], OtherRegs [x] s r ∧ r.pc = s.pcPlus 2#16 ∧ OnlyChanges [.registers, .counter] s r

/-- `8xy4` (41_alu.md section 3): `V[x]` is the sum modulo 256, then `VF` the carry, which wins when `x` is 15; `pc + 2`; no
other register and nothing else changes. That the flag wins where `x` is 15 is the sequential reading, the spec's choice
(decision D8, log entry 11). -/
def Obligations.AddSetsSumThenCarry : Prop :=
  ∀ x y : Reg,
    decodeWord (0x8#4 ++ nibbleOfReg x ++ nibbleOfReg y ++ 0x4#4) = some (.addReg x y) ∧
    ∀ s : State, ∃ t, exec (.addReg x y) s = .next t ∧
      t.reg 15 = (if (s.reg x).toNat + (s.reg y).toNat > 255 then 1#8 else 0#8) ∧
      (x ≠ 15 → (t.reg x).toNat = ((s.reg x).toNat + (s.reg y).toNat) % 256) ∧
      OtherRegs [x, 15] s t ∧ t.pc = s.pcPlus 2#16 ∧ OnlyChanges [.registers, .counter] s t

/-- `8xy5` (41_alu.md section 3): from the originals, `V[x]` is the difference modulo 256, then `VF` is 0 on a borrow and 1
without, which wins when `x` is 15; `pc + 2`; no other register and nothing else changes. That the flag wins where `x` is 15
is the sequential reading, the spec's choice (decision D8, log entry 11). -/
def Obligations.SubSetsDifferenceThenNotBorrow : Prop :=
  ∀ x y : Reg,
    decodeWord (0x8#4 ++ nibbleOfReg x ++ nibbleOfReg y ++ 0x5#4) = some (.sub x y) ∧
    ∀ s : State, ∃ t, exec (.sub x y) s = .next t ∧
      t.reg 15 = (if (s.reg y).toNat > (s.reg x).toNat then 0#8 else 1#8) ∧
      (x ≠ 15 → ((t.reg x).toNat : Int) = ((s.reg x).toNat - (s.reg y).toNat : Int) % 256) ∧
      OtherRegs [x, 15] s t ∧ t.pc = s.pcPlus 2#16 ∧ OnlyChanges [.registers, .counter] s t

/-- `8xy7` (41_alu.md section 3): from the originals, `V[y]` is `V[y] - V[x]` modulo 256, then `VF` is 0 on a borrow and 1
without, which wins when `y` is 15; `V[x]` is not a destination; `pc + 2`; no other register and nothing else changes. That
the flag wins where `y` is 15 is the sequential reading, the spec's choice (decision D8, log entry 11). -/
def Obligations.SubyWritesVyThenNotBorrow : Prop :=
  ∀ x y : Reg,
    decodeWord (0x8#4 ++ nibbleOfReg x ++ nibbleOfReg y ++ 0x7#4) = some (.suby x y) ∧
    ∀ s : State, ∃ t, exec (.suby x y) s = .next t ∧
      t.reg 15 = (if (s.reg x).toNat > (s.reg y).toNat then 0#8 else 1#8) ∧
      (y ≠ 15 → ((t.reg y).toNat : Int) = ((s.reg y).toNat - (s.reg x).toNat : Int) % 256) ∧
      OtherRegs [y, 15] s t ∧ t.pc = s.pcPlus 2#16 ∧ OnlyChanges [.registers, .counter] s t

/-- `8xy6` (41_alu.md section 3): the flag is bit 0 of `V[x]`, the value `V[y] >> 1`, with the outcomes of the rule's
table where 15 is an operand: the sequential reading is the spec's choice (decision D8, log entry 11). -/
def Obligations.ShrTakesFlagFromVxAndValueFromVy : Prop :=
  ∀ (x y : Reg) (s : State), ∃ t, exec (.shr x y) s = .next t ∧
    (x ≠ 15 → y ≠ 15 → (t.reg 15).toNat = (s.reg x).toNat % 2 ∧ (t.reg x).toNat = (s.reg y).toNat / 2) ∧
    (x = 15 → y ≠ 15 → (t.reg 15).toNat = (s.reg y).toNat / 2) ∧
    (y = 15 → x ≠ 15 → (t.reg 15).toNat = (s.reg x).toNat % 2 ∧ t.reg x = 0#8) ∧
    (x = 15 → y = 15 → t.reg 15 = 0#8) ∧
    OtherRegs [x, 15] s t ∧ t.pc = s.pcPlus 2#16 ∧ OnlyChanges [.registers, .counter] s t

/-- `8xyE` (41_alu.md section 3): the flag is bit 7 of `V[x]`, the value `V[x] << 1` modulo 256, whatever `y` is; with
`x` 15 the second write shifts the flag: the sequential reading is the spec's choice (decision D8, log entry 11). -/
def Obligations.ShlIgnoresVy : Prop :=
  ∀ (x y : Reg) (s : State), ∃ t, exec (.shl x y) s = .next t ∧
    (x ≠ 15 → (t.reg 15).toNat = (s.reg x).toNat / 128 ∧ (t.reg x).toNat = (s.reg x).toNat * 2 % 256) ∧
    (x = 15 → t.reg 15 = (if (s.reg 15).toNat ≥ 0x80 then 2#8 else 0#8)) ∧
    OtherRegs [x, 15] s t ∧ t.pc = s.pcPlus 2#16 ∧ OnlyChanges [.registers, .counter] s t

/-- `Cxnn` (41_alu.md section 4): `V[x]` is some byte under the mask `nn`, that byte the free value of this draw, and one
draw is consumed; the free value and its count are the model's (decision D11, log entry 2). -/
def Obligations.RndMasksAFreeByte : Prop :=
  ∀ (x : Reg) (nn : Byte) (s : State), ∃ t, exec (.rnd x nn) s = .next t ∧
    t.reg x = Config.rnd s.draws &&& nn ∧ (nn = 0#8 → t.reg x = 0#8) ∧ (t.reg x).toNat ≤ nn.toNat ∧
    t.draws = s.draws + 1 ∧ OtherRegs [x] s t ∧ t.pc = s.pcPlus 2#16 ∧
    OnlyChanges [.registers, .counter, .draws] s t

/-! ### Address register and memory transfer -/

/-- `Annn` and `Fx29` (R140, R142): `I` is the zero-extended address, or exactly five times the whole of `V[x]`; `pc + 2`;
nothing else changes. -/
def Obligations.LoadsTheAddressRegister : Prop :=
  (∀ nnn : Addr12, decodeWord (0xA#4 ++ nnn) = some (.ldI nnn) ∧
    ∀ s : State, ∃ t, exec (.ldI nnn) s = .next t ∧ t.i.toNat = nnn.toNat ∧ t.pc = s.pcPlus 2#16 ∧
      OnlyChanges [.index, .counter] s t) ∧
  (∀ x : Reg, decodeWord (0xF#4 ++ nibbleOfReg x ++ 0x29#8) = some (.ldF x) ∧
    ∀ s : State, ∃ t, exec (.ldF x) s = .next t ∧ t.i.toNat = 5 * (s.reg x).toNat ∧ t.pc = s.pcPlus 2#16 ∧
      OnlyChanges [.index, .counter] s t)

/-- `Fx1E` (42_index_memory.md section 2): `I` is the sum modulo 2^16, no flag is written, `pc + 2` and nothing else
changes. The wrap at 16 bits is the spec's choice (decision D3, log entry 16). -/
def Obligations.AddIWrapsAtSixteenBits : Prop :=
  ∀ (x : Reg) (s : State), ∃ t, exec (.addI x) s = .next t ∧
    t.i.toNat = (s.i.toNat + (s.reg x).toNat) % 65536 ∧ t.pc = s.pcPlus 2#16 ∧ OnlyChanges [.index, .counter] s t

/-- `Fx33` (42_index_memory.md section 3): with its three bytes in range the decimal digits of `V[x]` are stored at `I`,
`I + 1`, `I + 2`, every other byte reads as before and `I` is unchanged; otherwise it is the entry of the bounds fault
(decision D5, log entry 13). Memory is canonical, an invariant of its own. -/
def Obligations.BcdStoresThreeDigits : Prop :=
  ∀ (x : Reg) (s : State), s.memWf = true →
    (s.i.toNat + 2 ≤ 0xFFF → ∃ t, exec (.ldB x) s = .next t ∧
      (t.readByte s.i.toNat).toNat = (s.reg x).toNat / 100 ∧
      (t.readByte (s.i.toNat + 1)).toNat = (s.reg x).toNat / 10 % 10 ∧
      (t.readByte (s.i.toNat + 2)).toNat = (s.reg x).toNat % 10 ∧
      OtherBytes s.i.toNat 3 s t ∧ t.pc = s.pcPlus 2#16 ∧ OnlyChanges [.memory, .counter] s t) ∧
    (s.i.toNat + 2 > 0xFFF → ∃ t, exec (.ldB x) s = .next t ∧
      FaultEntry .memoryBoundsFault (BitVec.ofNat 16 (max s.i.toNat 0x1000)) s t)

/-- `Fx55` (42_index_memory.md section 3): with its bytes in range `V[0]` to `V[x]` are stored from `I` on, every other
byte reads as before and `I` advances by `x + 1`; otherwise it is the entry of the bounds fault (decision D5, log entry
13). Memory is canonical, an invariant of its own. -/
def Obligations.StoreRegistersThenAdvanceI : Prop :=
  ∀ (x : Reg) (s : State), s.memWf = true →
    (s.i.toNat + x.val ≤ 0xFFF → ∃ t, exec (.ldMemVx x) s = .next t ∧
      (∀ j : Reg, j ≤ x → t.readByte (s.i.toNat + j.val) = s.reg j) ∧
      OtherBytes s.i.toNat (x.val + 1) s t ∧ t.i.toNat = s.i.toNat + x.val + 1 ∧ t.pc = s.pcPlus 2#16 ∧
      OnlyChanges [.memory, .index, .counter] s t) ∧
    (s.i.toNat + x.val > 0xFFF → ∃ t, exec (.ldMemVx x) s = .next t ∧
      FaultEntry .memoryBoundsFault (BitVec.ofNat 16 (max s.i.toNat 0x1000)) s t)

/-- `Fx65` (42_index_memory.md section 3): with its bytes in range `V[0]` to `V[x]` are loaded from `I` on, the registers
above keep their values and `I` advances by `x + 1`; otherwise it is the entry of the bounds fault (decision D5, log
entry 13). -/
def Obligations.LoadRegistersThenAdvanceI : Prop :=
  ∀ (x : Reg) (s : State),
    (s.i.toNat + x.val ≤ 0xFFF → ∃ t, exec (.ldVxMem x) s = .next t ∧
      (∀ j : Reg, j ≤ x → t.reg j = s.readByte (s.i.toNat + j.val)) ∧ (∀ j : Reg, x < j → t.reg j = s.reg j) ∧
      t.i.toNat = s.i.toNat + x.val + 1 ∧ t.pc = s.pcPlus 2#16 ∧ OnlyChanges [.registers, .index, .counter] s t) ∧
    (s.i.toNat + x.val > 0xFFF → ∃ t, exec (.ldVxMem x) s = .next t ∧
      FaultEntry .memoryBoundsFault (BitVec.ofNat 16 (max s.i.toNat 0x1000)) s t)

/-! ### Display -/

/-- `00E0` (R150): every cell is false, `pc + 2`, and nothing else changes. -/
def Obligations.ClsClearsEveryCell : Prop :=
  decodeWord 0x00E0#16 = some .cls ∧
  ∀ s : State, ∃ t, exec .cls s = .next t ∧ (∀ r c, t.fb.cell r c = false) ∧ t.pc = s.pcPlus 2#16 ∧
    OnlyChanges [.display, .counter] s t

/-- `Dxyn` (43_display.md): the pixel loop of the rule equals the closed form. With the sprite's bytes in range, or no
byte at all, each cell the sprite covers is inverted and no other; `VF` is 1 when a covered cell was set, else 0; `I`
and memory are unchanged, `pc + 2`. The bit order and the origin taken before the flag write are the spec's choice
(decision D9, log entry 12). -/
def Obligations.DrawInvertsExactlyTheCoveredCells : Prop :=
  ∀ (x y : Reg) (n : Nibble) (s : State), n = 0 ∨ s.i.toNat + n.toNat ≤ 0x1000 →
    ∃ t, exec (.drw x y n) s = .next t ∧
      (∀ r c, spriteCovers s x y n r c → t.fb.cell r c = !s.fb.cell r c) ∧
      (∀ r c, ¬ spriteCovers s x y n r c → t.fb.cell r c = s.fb.cell r c) ∧
      ((∃ r c, spriteCovers s x y n r c ∧ s.fb.cell r c = true) → t.reg 15 = 1#8) ∧
      ((¬ ∃ r c, spriteCovers s x y n r c ∧ s.fb.cell r c = true) → t.reg 15 = 0#8) ∧
      OtherRegs [15] s t ∧ t.pc = s.pcPlus 2#16 ∧ OnlyChanges [.registers, .display, .counter] s t

/-- `Dxyn` with a sprite byte above 0xFFF is the entry of the bounds fault, with no cell and no flag written (20_memory.md
section 4; decision D5, log entry 13). -/
def Obligations.DrawOutsideMemoryFaults : Prop :=
  ∀ (x y : Reg) (n : Nibble) (s : State), n ≠ 0 → s.i.toNat + n.toNat > 0x1000 →
    ∃ t, exec (.drw x y n) s = .next t ∧
      FaultEntry .memoryBoundsFault (BitVec.ofNat 16 (max s.i.toNat 0x1000)) s t

/-- Drawing the same sprite twice at the same place restores the display, and where the first draw found no set cell and
the sprite covers some cell the second reports a collision (43_display.md; the origin is not in `VF`, so the claim does
not rest on decision D9). -/
def Obligations.DrawingTwiceRestoresTheDisplay : Prop :=
  ∀ (x y : Reg) (n : Nibble) (s t u : State), x ≠ 15 → y ≠ 15 → n = 0 ∨ s.i.toNat + n.toNat ≤ 0x1000 →
    exec (.drw x y n) s = .next t → exec (.drw x y n) t = .next u →
      u.fb = s.fb ∧
      ((∀ r c, spriteCovers s x y n r c → s.fb.cell r c = false) → (∃ r c, spriteCovers s x y n r c) →
        t.reg 15 = 0#8 ∧ u.reg 15 = 1#8)

/-! ### Timers, keys and the host's events -/

/-- `Fx07`, `Fx15` and `Fx18` (R160, R161, R162): the delay timer into `V[x]`, `V[x]` into the delay timer, `V[x]` into the
sound timer; `pc + 2`; nothing else changes. -/
def Obligations.TimersAreReadAndSet : Prop :=
  ∀ x : Reg,
    decodeWord (0xF#4 ++ nibbleOfReg x ++ 0x07#8) = some (.ldVxDt x) ∧
    decodeWord (0xF#4 ++ nibbleOfReg x ++ 0x15#8) = some (.ldDtVx x) ∧
    decodeWord (0xF#4 ++ nibbleOfReg x ++ 0x18#8) = some (.ldStVx x) ∧
    ∀ s : State, ∃ t u v, exec (.ldVxDt x) s = .next t ∧ exec (.ldDtVx x) s = .next u ∧ exec (.ldStVx x) s = .next v ∧
      t.reg x = s.dt ∧ OtherRegs [x] s t ∧ t.pc = s.pcPlus 2#16 ∧ OnlyChanges [.registers, .counter] s t ∧
      u.dt = s.reg x ∧ u.pc = s.pcPlus 2#16 ∧ OnlyChanges [.delayTimer, .counter] s u ∧
      v.st = s.reg x ∧ v.pc = s.pcPlus 2#16 ∧ OnlyChanges [.soundTimer, .counter] s v

/-- `Ex9E` and `ExA1` (44_timers_input.md section 2): with `V[x]` at most 15 they skip by the level of key `V[x]`, one the
complement of the other, and change nothing but `pc`; above 15 each is the entry of the key index fault (decision D6, log
entry 14). -/
def Obligations.KeySkipsTestTheNamedKey : Prop :=
  ∀ (x : Reg) (s : State),
    (∀ k : Key, (s.reg x).toNat = k.val → ∃ t u, exec (.skp x) s = .next t ∧ exec (.sknp x) s = .next u ∧
      (s.keyIsDown k = true → t.pc = s.pcPlus 4#16 ∧ u.pc = s.pcPlus 2#16) ∧
      (s.keyIsDown k = false → t.pc = s.pcPlus 2#16 ∧ u.pc = s.pcPlus 4#16) ∧
      OnlyChanges [.counter] s t ∧ OnlyChanges [.counter] s u) ∧
    ((s.reg x).toNat > 15 → ∃ t u, exec (.skp x) s = .next t ∧ exec (.sknp x) s = .next u ∧
      (∃ info : Word, info.toNat = (s.reg x).toNat ∧
        FaultEntry .keyIndexFault info s t ∧ FaultEntry .keyIndexFault info s u))

/-- `Fx0A` (44_timers_input.md section 2): with some key down the lowest goes into `V[x]` and `pc + 2`; with none the state
is unchanged, so the next step runs it again (decision D14, log entry 17). -/
def Obligations.WaitTakesTheLowestKeyDown : Prop :=
  ∀ (x : Reg) (s : State),
    (∀ k : Key, s.keyIsDown k = true → (∀ j : Key, j < k → s.keyIsDown j = false) →
      ∃ t, exec (.ldVxK x) s = .next t ∧ (t.reg x).toNat = k.val ∧ OtherRegs [x] s t ∧ t.pc = s.pcPlus 2#16 ∧
        OnlyChanges [.registers, .counter] s t) ∧
    ((∀ k : Key, s.keyIsDown k = false) → exec (.ldVxK x) s = .next s)

/-- `TICK` (60_exceptions.md section 5): while running, each timer goes down by 1 if it is above 0 and stays at 0 otherwise,
and nothing else changes; while halted nothing does (decision D7, log entry 6). -/
def Obligations.TickCountsBothTimersDown : Prop :=
  ∀ s : State, ∃ t, applyEvent .tick s = .next t ∧
    (s.running → t.dt.toNat = s.dt.toNat - 1 ∧ t.st.toNat = s.st.toNat - 1 ∧
      OnlyChanges [.delayTimer, .soundTimer] s t) ∧
    (¬ s.running → t = s)

/-- `KEY_DOWN(k)` and `KEY_UP(k)` (60_exceptions.md section 6): while running, the one flag is set or cleared and nothing
else changes (decision D20, log entry 19). -/
def Obligations.KeyEventsSetOneFlag : Prop :=
  ∀ (k : Key) (s : State), s.running → ∃ t u, applyEvent (.keyDown k) s = .next t ∧ applyEvent (.keyUp k) s = .next u ∧
    t.keyIsDown k = true ∧ u.keyIsDown k = false ∧
    (∀ j, j ≠ k → t.keyIsDown j = s.keyIsDown j ∧ u.keyIsDown j = s.keyIsDown j) ∧
    OnlyChanges [.keys] s t ∧ OnlyChanges [.keys] s u

/-- `LOAD(bytes)` (70_reset_and_hazards.md section 2): while running, byte `j` of an image of at most 3584 bytes is at
`0x200 + j` and every other byte and everything else is as before; a longer image is refused (decision D16, log entry
10). Memory is canonical, an invariant of its own. -/
def Obligations.LoadCopiesTheImage : Prop :=
  ∀ (bytes : List Byte) (s : State), s.memWf = true → s.running →
    (bytes.length ≤ 3584 → ∃ t, applyEvent (.load bytes) s = .next t ∧
      (∀ (j : Nat) (h : j < bytes.length), t.readByte (0x200 + j) = bytes[j]) ∧
      OtherBytes 0x200 bytes.length s t ∧ OnlyChanges [.memory] s t) ∧
    (bytes.length > 3584 → applyEvent (.load bytes) s = .refused .imageTooLong)
end

