-- ==== Sys2Proof/Laws/Decode.lean ====
section
/-! SUPPORT. The fields of a packed word: what the decoder reads from what the encoder lays out. -/

namespace Sys2Proof

@[simp] theorem regOfNibble_nibbleOfReg (x : Reg) : regOfNibble (nibbleOfReg x) = x := rfl

@[simp] theorem nibbleOfReg_regOfNibble (b : Nibble) : nibbleOfReg (regOfNibble b) = b := rfl

@[simp] theorem fieldHi4_packAddr (h : Nibble) (a : Addr12) : fieldHi4 (packAddr h a) = h := by
  ext i hi
  simp only [fieldHi4, packAddr, BitVec.getElem_extractLsb', BitVec.getLsbD_append]
  rw [if_neg (by omega), Nat.add_sub_cancel_left, BitVec.getLsbD_eq_getElem hi]

@[simp] theorem fieldNNN_packAddr (h : Nibble) (a : Addr12) : fieldNNN (packAddr h a) = a := by
  ext i hi
  simp only [fieldNNN, packAddr, BitVec.getElem_extractLsb', BitVec.getLsbD_append, Nat.zero_add]
  rw [if_pos hi, BitVec.getLsbD_eq_getElem hi]

@[simp] theorem fieldHi4_packRegByte (h : Nibble) (x : Reg) (b : Byte) : fieldHi4 (packRegByte h x b) = h := by
  ext i hi
  simp only [fieldHi4, packRegByte, BitVec.getElem_extractLsb', BitVec.getLsbD_append]
  rw [if_neg (by omega), if_neg (by omega), BitVec.getLsbD_eq_getElem (by omega)]
  congr 1
  omega

@[simp] theorem fieldX_packRegByte (h : Nibble) (x : Reg) (b : Byte) : fieldX (packRegByte h x b) = x := by
  rw [fieldX, ← regOfNibble_nibbleOfReg x]
  congr 1
  ext i hi
  simp only [packRegByte, BitVec.getElem_extractLsb', BitVec.getLsbD_append, regOfNibble_nibbleOfReg]
  rw [if_neg (by omega), if_pos (by omega), Nat.add_sub_cancel_left, BitVec.getLsbD_eq_getElem hi]

@[simp] theorem fieldNN_packRegByte (h : Nibble) (x : Reg) (b : Byte) : fieldNN (packRegByte h x b) = b := by
  ext i hi
  simp only [fieldNN, packRegByte, BitVec.getElem_extractLsb', BitVec.getLsbD_append, Nat.zero_add]
  rw [if_pos hi, BitVec.getLsbD_eq_getElem hi]

@[simp] theorem fieldHi4_packRegReg (h : Nibble) (x y : Reg) (n : Nibble) : fieldHi4 (packRegReg h x y n) = h := by
  ext i hi
  simp only [fieldHi4, packRegReg, BitVec.getElem_extractLsb', BitVec.getLsbD_append]
  rw [if_neg (by omega), if_neg (by omega), if_neg (by omega), BitVec.getLsbD_eq_getElem (by omega)]
  congr 1
  omega

@[simp] theorem fieldX_packRegReg (h : Nibble) (x y : Reg) (n : Nibble) : fieldX (packRegReg h x y n) = x := by
  rw [fieldX, ← regOfNibble_nibbleOfReg x]
  congr 1
  ext i hi
  simp only [packRegReg, BitVec.getElem_extractLsb', BitVec.getLsbD_append, regOfNibble_nibbleOfReg]
  rw [if_neg (by omega), if_neg (by omega), if_pos (by omega), BitVec.getLsbD_eq_getElem (by omega)]
  congr 1
  omega

@[simp] theorem fieldY_packRegReg (h : Nibble) (x y : Reg) (n : Nibble) : fieldY (packRegReg h x y n) = y := by
  rw [fieldY, ← regOfNibble_nibbleOfReg y]
  congr 1
  ext i hi
  simp only [packRegReg, BitVec.getElem_extractLsb', BitVec.getLsbD_append, regOfNibble_nibbleOfReg]
  rw [if_neg (by omega), if_pos (by omega), Nat.add_sub_cancel_left, BitVec.getLsbD_eq_getElem hi]

@[simp] theorem fieldN_packRegReg (h : Nibble) (x y : Reg) (n : Nibble) : fieldN (packRegReg h x y n) = n := by
  ext i hi
  simp only [fieldN, packRegReg, BitVec.getElem_extractLsb', BitVec.getLsbD_append, Nat.zero_add]
  rw [if_pos hi, BitVec.getLsbD_eq_getElem hi]

/-- The word of the two bytes of a word is the word (R42). -/
@[simp] theorem wordOfBytes_high_low (op : Word) : wordOfBytes (highByte op) (lowByte op) = op := by
  apply BitVec.eq_of_getLsbD_eq
  intro i hi
  simp only [wordOfBytes, highByte, lowByte, BitVec.getLsbD_append, BitVec.getLsbD_extractLsb', Nat.zero_add]
  split
  · next h => simp [h]
  · next h => simp [show i - 8 < 8 by omega, show 8 + (i - 8) = i by omega]

@[simp] theorem highByte_wordOfBytes (hi lo : Byte) : highByte (wordOfBytes hi lo) = hi := by
  ext i h
  simp only [wordOfBytes, highByte, BitVec.getElem_extractLsb', BitVec.getLsbD_append]
  rw [if_neg (by omega), Nat.add_sub_cancel_left, BitVec.getLsbD_eq_getElem h]

@[simp] theorem lowByte_wordOfBytes (hi lo : Byte) : lowByte (wordOfBytes hi lo) = lo := by
  ext i h
  simp only [wordOfBytes, lowByte, BitVec.getElem_extractLsb', BitVec.getLsbD_append, Nat.zero_add]
  rw [if_pos h, BitVec.getLsbD_eq_getElem h]

/-! ### A mask keeps the digits it selects (R63) -/

theorem packAddr_and_F000 (h : Nibble) (a : Addr12) : packAddr h a &&& 0xF000#16 = packAddr h 0 := by
  apply BitVec.eq_of_getLsbD_eq
  intro i hi
  simp only [packAddr, BitVec.getLsbD_and, BitVec.getLsbD_append]
  interval_cases i <;> simp

theorem packRegByte_and_F000 (h : Nibble) (x : Reg) (b : Byte) :
    packRegByte h x b &&& 0xF000#16 = packRegByte h 0 0 := by
  apply BitVec.eq_of_getLsbD_eq
  intro i hi
  simp only [packRegByte, BitVec.getLsbD_and, BitVec.getLsbD_append]
  interval_cases i <;> simp [nibbleOfReg]

theorem packRegByte_and_F0FF (h : Nibble) (x : Reg) (b : Byte) :
    packRegByte h x b &&& 0xF0FF#16 = packRegByte h 0 b := by
  apply BitVec.eq_of_getLsbD_eq
  intro i hi
  simp only [packRegByte, BitVec.getLsbD_and, BitVec.getLsbD_append]
  interval_cases i <;> simp [nibbleOfReg]

theorem packRegReg_and_F00F (h : Nibble) (x y : Reg) (n : Nibble) :
    packRegReg h x y n &&& 0xF00F#16 = packRegReg h 0 0 n := by
  apply BitVec.eq_of_getLsbD_eq
  intro i hi
  simp only [packRegReg, BitVec.getLsbD_and, BitVec.getLsbD_append]
  interval_cases i <;> simp [nibbleOfReg]

theorem packRegReg_and_F000 (h : Nibble) (x y : Reg) (n : Nibble) :
    packRegReg h x y n &&& 0xF000#16 = packRegReg h 0 0 0 := by
  apply BitVec.eq_of_getLsbD_eq
  intro i hi
  simp only [packRegReg, BitVec.getLsbD_and, BitVec.getLsbD_append]
  interval_cases i <;> simp [nibbleOfReg]

end Sys2Proof
end

