-- ==== Sys2Proof/Laws/Params.lean ====
section
/-! SUPPORT. What every choice of the parameters shares: `pc` holds every value below 2^13 whole, cutting twice is cutting
once, and the font has 80 bytes with glyph A in its place. -/

namespace Sys2Proof.Machine

/-- At least 13 bits: a value below 2^13 is held whole. -/
theorem Params.cutPc_of_lt (p : Params) {w : Word} (h : w.toNat < 0x2000) : p.cutPc w = w := by
  have hp : (0x2000 : Nat) ≤ 2 ^ p.pcBits := by
    rw [Params.pcBits, show (0x2000 : Nat) = 2 ^ 13 from rfl]
    exact Nat.pow_le_pow_right (by decide) (Nat.le_add_right 13 _)
  rw [Params.cutPc, Nat.mod_eq_of_lt (by omega), BitVec.ofNat_toNat, BitVec.setWidth_eq]

/-- A sum of a cut value is cut as the sum itself: what the second write of a return leaves (R101). -/
theorem Params.cutPc_add_cutPc (p : Params) (w k : Word) : p.cutPc (p.cutPc w + k) = p.cutPc (w + k) := by
  by_cases h : p.pcBits ≤ 16
  · have hd : 2 ^ p.pcBits ∣ 2 ^ 16 := Nat.pow_dvd_pow 2 h
    apply BitVec.eq_of_toNat_eq
    simp only [Params.cutPc, BitVec.toNat_ofNat, BitVec.toNat_add]
    rw [Nat.mod_mod_of_dvd _ hd, Nat.mod_mod_of_dvd _ hd, Nat.add_mod, Nat.mod_mod_of_dvd _ hd, Nat.mod_mod,
      ← Nat.add_mod]
  · have hp : 2 ^ 16 ≤ 2 ^ p.pcBits := Nat.pow_le_pow_right (by decide) (by omega)
    have cut : ∀ v : Word, p.cutPc v = v := fun v => by
      rw [Params.cutPc, Nat.mod_eq_of_lt (by have := v.isLt; omega), BitVec.ofNat_toNat, BitVec.setWidth_eq]
    rw [cut w]

/-- Where an instruction can be fetched, and everywhere below 2^13, `pc + k` is the exact sum. -/
theorem State.toNat_pcPlus (s : State) {k : Word} (h : s.pc.toNat + k.toNat < 0x2000) :
    (s.pcPlus k).toNat = s.pc.toNat + k.toNat := by
  have hk : (s.pc + k).toNat = s.pc.toNat + k.toNat := by
    rw [BitVec.toNat_add, Nat.mod_eq_of_lt (by omega)]
  rw [State.pcPlus, Params.cutPc_of_lt _ (by omega), hk]

@[simp] theorem Params.length_font (p : Params) : p.font.length = 80 := by
  simp [Params.font, glyphA]

/-- Past the font the reset contents are zero (R24, R45). -/
theorem Memory.resetByte_of_ge (p : Params) {a : Nat} (h : 80 ≤ a) : Memory.resetByte p.font a = 0x00#8 := by
  rw [Memory.resetByte, List.getD_eq_default _ _ (by rw [Params.length_font]; exact h)]

end Sys2Proof.Machine
end

