-- ==== Sys2Proof/Laws/State.lean ====
section
/-! SUPPORT. One lemma per field per update of the state, so that no later proof unfolds a record update, and the reads of
registers and memory through each update. -/

namespace Sys2Proof.Machine

/-! ### setReg -/

@[simp] theorem State.setReg_mem (s : State) (x : Reg) (b : Byte) : (s.setReg x b).mem = s.mem := rfl
@[simp] theorem State.setReg_v (s : State) (x : Reg) (b : Byte) : (s.setReg x b).v = s.v.set x b := rfl
@[simp] theorem State.setReg_i (s : State) (x : Reg) (b : Byte) : (s.setReg x b).i = s.i := rfl
@[simp] theorem State.setReg_pc (s : State) (x : Reg) (b : Byte) : (s.setReg x b).pc = s.pc := rfl
@[simp] theorem State.setReg_pcPlus (s : State) (x : Reg) (b : Byte) (k : Word) : (s.setReg x b).pcPlus k = s.pcPlus k := rfl
@[simp] theorem State.setReg_stack (s : State) (x : Reg) (b : Byte) : (s.setReg x b).stack = s.stack := rfl
@[simp] theorem State.setReg_dt (s : State) (x : Reg) (b : Byte) : (s.setReg x b).dt = s.dt := rfl
@[simp] theorem State.setReg_st (s : State) (x : Reg) (b : Byte) : (s.setReg x b).st = s.st := rfl
@[simp] theorem State.setReg_key (s : State) (x : Reg) (b : Byte) : (s.setReg x b).key = s.key := rfl
@[simp] theorem State.setReg_fb (s : State) (x : Reg) (b : Byte) : (s.setReg x b).fb = s.fb := rfl
@[simp] theorem State.setReg_halt (s : State) (x : Reg) (b : Byte) : (s.setReg x b).halt = s.halt := rfl
@[simp] theorem State.setReg_haltInfo (s : State) (x : Reg) (b : Byte) : (s.setReg x b).haltInfo = s.haltInfo := rfl
@[simp] theorem State.setReg_draws (s : State) (x : Reg) (b : Byte) : (s.setReg x b).draws = s.draws := rfl
@[simp] theorem State.setReg_params (s : State) (x : Reg) (b : Byte) : (s.setReg x b).params = s.params := rfl
@[simp] theorem State.setReg_readByte (s : State) (x : Reg) (b : Byte) (a : Nat) : (s.setReg x b).readByte a = s.readByte a := rfl

/-! ### setFlag -/

@[simp] theorem State.setFlag_mem (s : State) (f : Bool) : (s.setFlag f).mem = s.mem := rfl
@[simp] theorem State.setFlag_v (s : State) (f : Bool) : (s.setFlag f).v = s.v.set VF (if f then 0x01#8 else 0x00#8) := rfl
@[simp] theorem State.setFlag_i (s : State) (f : Bool) : (s.setFlag f).i = s.i := rfl
@[simp] theorem State.setFlag_pc (s : State) (f : Bool) : (s.setFlag f).pc = s.pc := rfl
@[simp] theorem State.setFlag_pcPlus (s : State) (f : Bool) (k : Word) : (s.setFlag f).pcPlus k = s.pcPlus k := rfl
@[simp] theorem State.setFlag_stack (s : State) (f : Bool) : (s.setFlag f).stack = s.stack := rfl
@[simp] theorem State.setFlag_dt (s : State) (f : Bool) : (s.setFlag f).dt = s.dt := rfl
@[simp] theorem State.setFlag_st (s : State) (f : Bool) : (s.setFlag f).st = s.st := rfl
@[simp] theorem State.setFlag_key (s : State) (f : Bool) : (s.setFlag f).key = s.key := rfl
@[simp] theorem State.setFlag_fb (s : State) (f : Bool) : (s.setFlag f).fb = s.fb := rfl
@[simp] theorem State.setFlag_halt (s : State) (f : Bool) : (s.setFlag f).halt = s.halt := rfl
@[simp] theorem State.setFlag_haltInfo (s : State) (f : Bool) : (s.setFlag f).haltInfo = s.haltInfo := rfl
@[simp] theorem State.setFlag_draws (s : State) (f : Bool) : (s.setFlag f).draws = s.draws := rfl
@[simp] theorem State.setFlag_params (s : State) (f : Bool) : (s.setFlag f).params = s.params := rfl
@[simp] theorem State.setFlag_readByte (s : State) (f : Bool) (a : Nat) : (s.setFlag f).readByte a = s.readByte a := rfl

/-! ### setI -/

@[simp] theorem State.setI_mem (s : State) (w : Word) : (s.setI w).mem = s.mem := rfl
@[simp] theorem State.setI_v (s : State) (w : Word) : (s.setI w).v = s.v := rfl
@[simp] theorem State.setI_i (s : State) (w : Word) : (s.setI w).i = w := rfl
@[simp] theorem State.setI_pc (s : State) (w : Word) : (s.setI w).pc = s.pc := rfl
@[simp] theorem State.setI_pcPlus (s : State) (w : Word) (k : Word) : (s.setI w).pcPlus k = s.pcPlus k := rfl
@[simp] theorem State.setI_stack (s : State) (w : Word) : (s.setI w).stack = s.stack := rfl
@[simp] theorem State.setI_dt (s : State) (w : Word) : (s.setI w).dt = s.dt := rfl
@[simp] theorem State.setI_st (s : State) (w : Word) : (s.setI w).st = s.st := rfl
@[simp] theorem State.setI_key (s : State) (w : Word) : (s.setI w).key = s.key := rfl
@[simp] theorem State.setI_fb (s : State) (w : Word) : (s.setI w).fb = s.fb := rfl
@[simp] theorem State.setI_halt (s : State) (w : Word) : (s.setI w).halt = s.halt := rfl
@[simp] theorem State.setI_haltInfo (s : State) (w : Word) : (s.setI w).haltInfo = s.haltInfo := rfl
@[simp] theorem State.setI_draws (s : State) (w : Word) : (s.setI w).draws = s.draws := rfl
@[simp] theorem State.setI_params (s : State) (w : Word) : (s.setI w).params = s.params := rfl
@[simp] theorem State.setI_reg (s : State) (w : Word) (k : Reg) : (s.setI w).reg k = s.reg k := rfl
@[simp] theorem State.setI_readByte (s : State) (w : Word) (a : Nat) : (s.setI w).readByte a = s.readByte a := rfl

/-! ### setDt -/

@[simp] theorem State.setDt_mem (s : State) (b : Byte) : (s.setDt b).mem = s.mem := rfl
@[simp] theorem State.setDt_v (s : State) (b : Byte) : (s.setDt b).v = s.v := rfl
@[simp] theorem State.setDt_i (s : State) (b : Byte) : (s.setDt b).i = s.i := rfl
@[simp] theorem State.setDt_pc (s : State) (b : Byte) : (s.setDt b).pc = s.pc := rfl
@[simp] theorem State.setDt_pcPlus (s : State) (b : Byte) (k : Word) : (s.setDt b).pcPlus k = s.pcPlus k := rfl
@[simp] theorem State.setDt_stack (s : State) (b : Byte) : (s.setDt b).stack = s.stack := rfl
@[simp] theorem State.setDt_dt (s : State) (b : Byte) : (s.setDt b).dt = b := rfl
@[simp] theorem State.setDt_st (s : State) (b : Byte) : (s.setDt b).st = s.st := rfl
@[simp] theorem State.setDt_key (s : State) (b : Byte) : (s.setDt b).key = s.key := rfl
@[simp] theorem State.setDt_fb (s : State) (b : Byte) : (s.setDt b).fb = s.fb := rfl
@[simp] theorem State.setDt_halt (s : State) (b : Byte) : (s.setDt b).halt = s.halt := rfl
@[simp] theorem State.setDt_haltInfo (s : State) (b : Byte) : (s.setDt b).haltInfo = s.haltInfo := rfl
@[simp] theorem State.setDt_draws (s : State) (b : Byte) : (s.setDt b).draws = s.draws := rfl
@[simp] theorem State.setDt_params (s : State) (b : Byte) : (s.setDt b).params = s.params := rfl
@[simp] theorem State.setDt_reg (s : State) (b : Byte) (k : Reg) : (s.setDt b).reg k = s.reg k := rfl
@[simp] theorem State.setDt_readByte (s : State) (b : Byte) (a : Nat) : (s.setDt b).readByte a = s.readByte a := rfl

/-! ### setSt -/

@[simp] theorem State.setSt_mem (s : State) (b : Byte) : (s.setSt b).mem = s.mem := rfl
@[simp] theorem State.setSt_v (s : State) (b : Byte) : (s.setSt b).v = s.v := rfl
@[simp] theorem State.setSt_i (s : State) (b : Byte) : (s.setSt b).i = s.i := rfl
@[simp] theorem State.setSt_pc (s : State) (b : Byte) : (s.setSt b).pc = s.pc := rfl
@[simp] theorem State.setSt_pcPlus (s : State) (b : Byte) (k : Word) : (s.setSt b).pcPlus k = s.pcPlus k := rfl
@[simp] theorem State.setSt_stack (s : State) (b : Byte) : (s.setSt b).stack = s.stack := rfl
@[simp] theorem State.setSt_dt (s : State) (b : Byte) : (s.setSt b).dt = s.dt := rfl
@[simp] theorem State.setSt_st (s : State) (b : Byte) : (s.setSt b).st = b := rfl
@[simp] theorem State.setSt_key (s : State) (b : Byte) : (s.setSt b).key = s.key := rfl
@[simp] theorem State.setSt_fb (s : State) (b : Byte) : (s.setSt b).fb = s.fb := rfl
@[simp] theorem State.setSt_halt (s : State) (b : Byte) : (s.setSt b).halt = s.halt := rfl
@[simp] theorem State.setSt_haltInfo (s : State) (b : Byte) : (s.setSt b).haltInfo = s.haltInfo := rfl
@[simp] theorem State.setSt_draws (s : State) (b : Byte) : (s.setSt b).draws = s.draws := rfl
@[simp] theorem State.setSt_params (s : State) (b : Byte) : (s.setSt b).params = s.params := rfl
@[simp] theorem State.setSt_reg (s : State) (b : Byte) (k : Reg) : (s.setSt b).reg k = s.reg k := rfl
@[simp] theorem State.setSt_readByte (s : State) (b : Byte) (a : Nat) : (s.setSt b).readByte a = s.readByte a := rfl

/-! ### setStack -/

@[simp] theorem State.setStack_mem (s : State) (l : List Word) : (s.setStack l).mem = s.mem := rfl
@[simp] theorem State.setStack_v (s : State) (l : List Word) : (s.setStack l).v = s.v := rfl
@[simp] theorem State.setStack_i (s : State) (l : List Word) : (s.setStack l).i = s.i := rfl
@[simp] theorem State.setStack_pc (s : State) (l : List Word) : (s.setStack l).pc = s.pc := rfl
@[simp] theorem State.setStack_pcPlus (s : State) (l : List Word) (k : Word) : (s.setStack l).pcPlus k = s.pcPlus k := rfl
@[simp] theorem State.setStack_stack (s : State) (l : List Word) : (s.setStack l).stack = l := rfl
@[simp] theorem State.setStack_dt (s : State) (l : List Word) : (s.setStack l).dt = s.dt := rfl
@[simp] theorem State.setStack_st (s : State) (l : List Word) : (s.setStack l).st = s.st := rfl
@[simp] theorem State.setStack_key (s : State) (l : List Word) : (s.setStack l).key = s.key := rfl
@[simp] theorem State.setStack_fb (s : State) (l : List Word) : (s.setStack l).fb = s.fb := rfl
@[simp] theorem State.setStack_halt (s : State) (l : List Word) : (s.setStack l).halt = s.halt := rfl
@[simp] theorem State.setStack_haltInfo (s : State) (l : List Word) : (s.setStack l).haltInfo = s.haltInfo := rfl
@[simp] theorem State.setStack_draws (s : State) (l : List Word) : (s.setStack l).draws = s.draws := rfl
@[simp] theorem State.setStack_params (s : State) (l : List Word) : (s.setStack l).params = s.params := rfl
@[simp] theorem State.setStack_reg (s : State) (l : List Word) (k : Reg) : (s.setStack l).reg k = s.reg k := rfl
@[simp] theorem State.setStack_readByte (s : State) (l : List Word) (a : Nat) : (s.setStack l).readByte a = s.readByte a := rfl

/-! ### jump -/

@[simp] theorem State.jump_mem (s : State) (w : Word) : (s.jump w).mem = s.mem := rfl
@[simp] theorem State.jump_v (s : State) (w : Word) : (s.jump w).v = s.v := rfl
@[simp] theorem State.jump_i (s : State) (w : Word) : (s.jump w).i = s.i := rfl
@[simp] theorem State.jump_pc (s : State) (w : Word) : (s.jump w).pc = s.params.cutPc w := rfl
@[simp] theorem State.jump_stack (s : State) (w : Word) : (s.jump w).stack = s.stack := rfl
@[simp] theorem State.jump_dt (s : State) (w : Word) : (s.jump w).dt = s.dt := rfl
@[simp] theorem State.jump_st (s : State) (w : Word) : (s.jump w).st = s.st := rfl
@[simp] theorem State.jump_key (s : State) (w : Word) : (s.jump w).key = s.key := rfl
@[simp] theorem State.jump_fb (s : State) (w : Word) : (s.jump w).fb = s.fb := rfl
@[simp] theorem State.jump_halt (s : State) (w : Word) : (s.jump w).halt = s.halt := rfl
@[simp] theorem State.jump_haltInfo (s : State) (w : Word) : (s.jump w).haltInfo = s.haltInfo := rfl
@[simp] theorem State.jump_draws (s : State) (w : Word) : (s.jump w).draws = s.draws := rfl
@[simp] theorem State.jump_params (s : State) (w : Word) : (s.jump w).params = s.params := rfl
@[simp] theorem State.jump_reg (s : State) (w : Word) (k : Reg) : (s.jump w).reg k = s.reg k := rfl
@[simp] theorem State.jump_readByte (s : State) (w : Word) (a : Nat) : (s.jump w).readByte a = s.readByte a := rfl

/-! ### advance -/

@[simp] theorem State.advance_mem (s : State) : (s.advance).mem = s.mem := rfl
@[simp] theorem State.advance_v (s : State) : (s.advance).v = s.v := rfl
@[simp] theorem State.advance_i (s : State) : (s.advance).i = s.i := rfl
@[simp] theorem State.advance_pc (s : State) : (s.advance).pc = s.pcPlus 2#16 := rfl
@[simp] theorem State.advance_stack (s : State) : (s.advance).stack = s.stack := rfl
@[simp] theorem State.advance_dt (s : State) : (s.advance).dt = s.dt := rfl
@[simp] theorem State.advance_st (s : State) : (s.advance).st = s.st := rfl
@[simp] theorem State.advance_key (s : State) : (s.advance).key = s.key := rfl
@[simp] theorem State.advance_fb (s : State) : (s.advance).fb = s.fb := rfl
@[simp] theorem State.advance_halt (s : State) : (s.advance).halt = s.halt := rfl
@[simp] theorem State.advance_haltInfo (s : State) : (s.advance).haltInfo = s.haltInfo := rfl
@[simp] theorem State.advance_draws (s : State) : (s.advance).draws = s.draws := rfl
@[simp] theorem State.advance_params (s : State) : (s.advance).params = s.params := rfl
@[simp] theorem State.advance_reg (s : State) (k : Reg) : (s.advance).reg k = s.reg k := rfl
@[simp] theorem State.advance_readByte (s : State) (a : Nat) : (s.advance).readByte a = s.readByte a := rfl

/-! ### skipIf -/

@[simp] theorem State.skipIf_mem (s : State) (c : Bool) : (s.skipIf c).mem = s.mem := rfl
@[simp] theorem State.skipIf_v (s : State) (c : Bool) : (s.skipIf c).v = s.v := rfl
@[simp] theorem State.skipIf_i (s : State) (c : Bool) : (s.skipIf c).i = s.i := rfl
@[simp] theorem State.skipIf_pc (s : State) (c : Bool) : (s.skipIf c).pc = if c then s.pcPlus 4#16 else s.pcPlus 2#16 := by
  cases c <;> rfl
@[simp] theorem State.skipIf_stack (s : State) (c : Bool) : (s.skipIf c).stack = s.stack := rfl
@[simp] theorem State.skipIf_dt (s : State) (c : Bool) : (s.skipIf c).dt = s.dt := rfl
@[simp] theorem State.skipIf_st (s : State) (c : Bool) : (s.skipIf c).st = s.st := rfl
@[simp] theorem State.skipIf_key (s : State) (c : Bool) : (s.skipIf c).key = s.key := rfl
@[simp] theorem State.skipIf_fb (s : State) (c : Bool) : (s.skipIf c).fb = s.fb := rfl
@[simp] theorem State.skipIf_halt (s : State) (c : Bool) : (s.skipIf c).halt = s.halt := rfl
@[simp] theorem State.skipIf_haltInfo (s : State) (c : Bool) : (s.skipIf c).haltInfo = s.haltInfo := rfl
@[simp] theorem State.skipIf_draws (s : State) (c : Bool) : (s.skipIf c).draws = s.draws := rfl
@[simp] theorem State.skipIf_params (s : State) (c : Bool) : (s.skipIf c).params = s.params := rfl
@[simp] theorem State.skipIf_reg (s : State) (c : Bool) (k : Reg) : (s.skipIf c).reg k = s.reg k := rfl
@[simp] theorem State.skipIf_readByte (s : State) (c : Bool) (a : Nat) : (s.skipIf c).readByte a = s.readByte a := rfl

/-! ### push -/

@[simp] theorem State.push_mem (s : State) (w : Word) : (s.push w).mem = s.mem := rfl
@[simp] theorem State.push_v (s : State) (w : Word) : (s.push w).v = s.v := rfl
@[simp] theorem State.push_i (s : State) (w : Word) : (s.push w).i = s.i := rfl
@[simp] theorem State.push_pc (s : State) (w : Word) : (s.push w).pc = s.pc := rfl
@[simp] theorem State.push_pcPlus (s : State) (w : Word) (k : Word) : (s.push w).pcPlus k = s.pcPlus k := rfl
@[simp] theorem State.push_stack (s : State) (w : Word) : (s.push w).stack = w :: s.stack := rfl
@[simp] theorem State.push_dt (s : State) (w : Word) : (s.push w).dt = s.dt := rfl
@[simp] theorem State.push_st (s : State) (w : Word) : (s.push w).st = s.st := rfl
@[simp] theorem State.push_key (s : State) (w : Word) : (s.push w).key = s.key := rfl
@[simp] theorem State.push_fb (s : State) (w : Word) : (s.push w).fb = s.fb := rfl
@[simp] theorem State.push_halt (s : State) (w : Word) : (s.push w).halt = s.halt := rfl
@[simp] theorem State.push_haltInfo (s : State) (w : Word) : (s.push w).haltInfo = s.haltInfo := rfl
@[simp] theorem State.push_draws (s : State) (w : Word) : (s.push w).draws = s.draws := rfl
@[simp] theorem State.push_params (s : State) (w : Word) : (s.push w).params = s.params := rfl
@[simp] theorem State.push_reg (s : State) (w : Word) (k : Reg) : (s.push w).reg k = s.reg k := rfl
@[simp] theorem State.push_readByte (s : State) (w : Word) (a : Nat) : (s.push w).readByte a = s.readByte a := rfl

/-! ### raise -/

@[simp] theorem State.raise_mem (s : State) (c : HaltStatus) (w : Word) : (s.raise c w).mem = s.mem := rfl
@[simp] theorem State.raise_v (s : State) (c : HaltStatus) (w : Word) : (s.raise c w).v = s.v := rfl
@[simp] theorem State.raise_i (s : State) (c : HaltStatus) (w : Word) : (s.raise c w).i = s.i := rfl
@[simp] theorem State.raise_pc (s : State) (c : HaltStatus) (w : Word) : (s.raise c w).pc = s.pc := rfl
@[simp] theorem State.raise_pcPlus (s : State) (c : HaltStatus) (w : Word) (k : Word) : (s.raise c w).pcPlus k = s.pcPlus k := rfl
@[simp] theorem State.raise_stack (s : State) (c : HaltStatus) (w : Word) : (s.raise c w).stack = s.stack := rfl
@[simp] theorem State.raise_dt (s : State) (c : HaltStatus) (w : Word) : (s.raise c w).dt = s.dt := rfl
@[simp] theorem State.raise_st (s : State) (c : HaltStatus) (w : Word) : (s.raise c w).st = s.st := rfl
@[simp] theorem State.raise_key (s : State) (c : HaltStatus) (w : Word) : (s.raise c w).key = s.key := rfl
@[simp] theorem State.raise_fb (s : State) (c : HaltStatus) (w : Word) : (s.raise c w).fb = s.fb := rfl
@[simp] theorem State.raise_halt (s : State) (c : HaltStatus) (w : Word) : (s.raise c w).halt = c := rfl
@[simp] theorem State.raise_haltInfo (s : State) (c : HaltStatus) (w : Word) : (s.raise c w).haltInfo = w := rfl
@[simp] theorem State.raise_draws (s : State) (c : HaltStatus) (w : Word) : (s.raise c w).draws = s.draws := rfl
@[simp] theorem State.raise_params (s : State) (c : HaltStatus) (w : Word) : (s.raise c w).params = s.params := rfl
@[simp] theorem State.raise_reg (s : State) (c : HaltStatus) (w : Word) (k : Reg) : (s.raise c w).reg k = s.reg k := rfl
@[simp] theorem State.raise_readByte (s : State) (c : HaltStatus) (w : Word) (a : Nat) : (s.raise c w).readByte a = s.readByte a := rfl

/-! ### putReg -/

@[simp] theorem State.putReg_mem (s : State) (x : Reg) (b : Byte) : (s.putReg x b).mem = s.mem := rfl
@[simp] theorem State.putReg_v (s : State) (x : Reg) (b : Byte) : (s.putReg x b).v = s.v.set x b := rfl
@[simp] theorem State.putReg_i (s : State) (x : Reg) (b : Byte) : (s.putReg x b).i = s.i := rfl
@[simp] theorem State.putReg_pc (s : State) (x : Reg) (b : Byte) : (s.putReg x b).pc = s.pcPlus 2#16 := rfl
@[simp] theorem State.putReg_stack (s : State) (x : Reg) (b : Byte) : (s.putReg x b).stack = s.stack := rfl
@[simp] theorem State.putReg_dt (s : State) (x : Reg) (b : Byte) : (s.putReg x b).dt = s.dt := rfl
@[simp] theorem State.putReg_st (s : State) (x : Reg) (b : Byte) : (s.putReg x b).st = s.st := rfl
@[simp] theorem State.putReg_key (s : State) (x : Reg) (b : Byte) : (s.putReg x b).key = s.key := rfl
@[simp] theorem State.putReg_fb (s : State) (x : Reg) (b : Byte) : (s.putReg x b).fb = s.fb := rfl
@[simp] theorem State.putReg_halt (s : State) (x : Reg) (b : Byte) : (s.putReg x b).halt = s.halt := rfl
@[simp] theorem State.putReg_haltInfo (s : State) (x : Reg) (b : Byte) : (s.putReg x b).haltInfo = s.haltInfo := rfl
@[simp] theorem State.putReg_draws (s : State) (x : Reg) (b : Byte) : (s.putReg x b).draws = s.draws := rfl
@[simp] theorem State.putReg_params (s : State) (x : Reg) (b : Byte) : (s.putReg x b).params = s.params := rfl
@[simp] theorem State.putReg_readByte (s : State) (x : Reg) (b : Byte) (a : Nat) : (s.putReg x b).readByte a = s.readByte a := rfl

/-! ### storeBytes -/

@[simp] theorem State.storeBytes_mem (s : State) (a : Nat) (bs : List Byte) : (s.storeBytes a bs).mem = s.mem.writeBytes s.font a bs := rfl
@[simp] theorem State.storeBytes_v (s : State) (a : Nat) (bs : List Byte) : (s.storeBytes a bs).v = s.v := rfl
@[simp] theorem State.storeBytes_i (s : State) (a : Nat) (bs : List Byte) : (s.storeBytes a bs).i = s.i := rfl
@[simp] theorem State.storeBytes_pc (s : State) (a : Nat) (bs : List Byte) : (s.storeBytes a bs).pc = s.pc := rfl
@[simp] theorem State.storeBytes_pcPlus (s : State) (a : Nat) (bs : List Byte) (k : Word) : (s.storeBytes a bs).pcPlus k = s.pcPlus k := rfl
@[simp] theorem State.storeBytes_stack (s : State) (a : Nat) (bs : List Byte) : (s.storeBytes a bs).stack = s.stack := rfl
@[simp] theorem State.storeBytes_dt (s : State) (a : Nat) (bs : List Byte) : (s.storeBytes a bs).dt = s.dt := rfl
@[simp] theorem State.storeBytes_st (s : State) (a : Nat) (bs : List Byte) : (s.storeBytes a bs).st = s.st := rfl
@[simp] theorem State.storeBytes_key (s : State) (a : Nat) (bs : List Byte) : (s.storeBytes a bs).key = s.key := rfl
@[simp] theorem State.storeBytes_fb (s : State) (a : Nat) (bs : List Byte) : (s.storeBytes a bs).fb = s.fb := rfl
@[simp] theorem State.storeBytes_halt (s : State) (a : Nat) (bs : List Byte) : (s.storeBytes a bs).halt = s.halt := rfl
@[simp] theorem State.storeBytes_haltInfo (s : State) (a : Nat) (bs : List Byte) : (s.storeBytes a bs).haltInfo = s.haltInfo := rfl
@[simp] theorem State.storeBytes_draws (s : State) (a : Nat) (bs : List Byte) : (s.storeBytes a bs).draws = s.draws := rfl
@[simp] theorem State.storeBytes_params (s : State) (a : Nat) (bs : List Byte) : (s.storeBytes a bs).params = s.params := rfl
@[simp] theorem State.storeBytes_reg (s : State) (a : Nat) (bs : List Byte) (k : Reg) : (s.storeBytes a bs).reg k = s.reg k := rfl

/-! ### bumpIndex -/

@[simp] theorem State.bumpIndex_mem (s : State) (x : Reg) : (s.bumpIndex x).mem = s.mem := rfl
@[simp] theorem State.bumpIndex_v (s : State) (x : Reg) : (s.bumpIndex x).v = s.v := rfl
@[simp] theorem State.bumpIndex_i (s : State) (x : Reg) : (s.bumpIndex x).i = s.i + BitVec.ofNat 16 (regCount x) := rfl
@[simp] theorem State.bumpIndex_pc (s : State) (x : Reg) : (s.bumpIndex x).pc = s.pc := rfl
@[simp] theorem State.bumpIndex_pcPlus (s : State) (x : Reg) (k : Word) : (s.bumpIndex x).pcPlus k = s.pcPlus k := rfl
@[simp] theorem State.bumpIndex_stack (s : State) (x : Reg) : (s.bumpIndex x).stack = s.stack := rfl
@[simp] theorem State.bumpIndex_dt (s : State) (x : Reg) : (s.bumpIndex x).dt = s.dt := rfl
@[simp] theorem State.bumpIndex_st (s : State) (x : Reg) : (s.bumpIndex x).st = s.st := rfl
@[simp] theorem State.bumpIndex_key (s : State) (x : Reg) : (s.bumpIndex x).key = s.key := rfl
@[simp] theorem State.bumpIndex_fb (s : State) (x : Reg) : (s.bumpIndex x).fb = s.fb := rfl
@[simp] theorem State.bumpIndex_halt (s : State) (x : Reg) : (s.bumpIndex x).halt = s.halt := rfl
@[simp] theorem State.bumpIndex_haltInfo (s : State) (x : Reg) : (s.bumpIndex x).haltInfo = s.haltInfo := rfl
@[simp] theorem State.bumpIndex_draws (s : State) (x : Reg) : (s.bumpIndex x).draws = s.draws := rfl
@[simp] theorem State.bumpIndex_params (s : State) (x : Reg) : (s.bumpIndex x).params = s.params := rfl
@[simp] theorem State.bumpIndex_reg (s : State) (x : Reg) (k : Reg) : (s.bumpIndex x).reg k = s.reg k := rfl
@[simp] theorem State.bumpIndex_readByte (s : State) (x : Reg) (a : Nat) : (s.bumpIndex x).readByte a = s.readByte a := rfl

/-! ### loadRegs -/

@[simp] theorem State.loadRegs_mem (s : State) (x : Reg) (a : Nat) : (s.loadRegs x a).mem = s.mem := by simp only [State.loadRegs]
@[simp] theorem State.loadRegs_i (s : State) (x : Reg) (a : Nat) : (s.loadRegs x a).i = s.i := by simp only [State.loadRegs]
@[simp] theorem State.loadRegs_pc (s : State) (x : Reg) (a : Nat) : (s.loadRegs x a).pc = s.pc := by simp only [State.loadRegs]
@[simp] theorem State.loadRegs_stack (s : State) (x : Reg) (a : Nat) : (s.loadRegs x a).stack = s.stack := by simp only [State.loadRegs]
@[simp] theorem State.loadRegs_dt (s : State) (x : Reg) (a : Nat) : (s.loadRegs x a).dt = s.dt := by simp only [State.loadRegs]
@[simp] theorem State.loadRegs_st (s : State) (x : Reg) (a : Nat) : (s.loadRegs x a).st = s.st := by simp only [State.loadRegs]
@[simp] theorem State.loadRegs_key (s : State) (x : Reg) (a : Nat) : (s.loadRegs x a).key = s.key := by simp only [State.loadRegs]
@[simp] theorem State.loadRegs_fb (s : State) (x : Reg) (a : Nat) : (s.loadRegs x a).fb = s.fb := by simp only [State.loadRegs]
@[simp] theorem State.loadRegs_halt (s : State) (x : Reg) (a : Nat) : (s.loadRegs x a).halt = s.halt := by simp only [State.loadRegs]
@[simp] theorem State.loadRegs_haltInfo (s : State) (x : Reg) (a : Nat) : (s.loadRegs x a).haltInfo = s.haltInfo := by simp only [State.loadRegs]
@[simp] theorem State.loadRegs_draws (s : State) (x : Reg) (a : Nat) : (s.loadRegs x a).draws = s.draws := by simp only [State.loadRegs]
@[simp] theorem State.loadRegs_params (s : State) (x : Reg) (a : Nat) : (s.loadRegs x a).params = s.params := by simp only [State.loadRegs]
@[simp] theorem State.loadRegs_pcPlus (s : State) (x : Reg) (a : Nat) (k : Word) : (s.loadRegs x a).pcPlus k = s.pcPlus k := by
  simp only [State.pcPlus, State.loadRegs_pc, State.loadRegs_params]
@[simp] theorem State.loadRegs_readByte (s : State) (x : Reg) (base a : Nat) : (s.loadRegs x base).readByte a = s.readByte a := by
  simp only [State.readByte, State.font, State.loadRegs_mem, State.loadRegs_params]

/-! ### drawn -/

@[simp] theorem State.drawn_mem (s : State) : (s.drawn).mem = s.mem := rfl
@[simp] theorem State.drawn_v (s : State) : (s.drawn).v = s.v := rfl
@[simp] theorem State.drawn_i (s : State) : (s.drawn).i = s.i := rfl
@[simp] theorem State.drawn_pc (s : State) : (s.drawn).pc = s.pc := rfl
@[simp] theorem State.drawn_pcPlus (s : State) (k : Word) : (s.drawn).pcPlus k = s.pcPlus k := rfl
@[simp] theorem State.drawn_stack (s : State) : (s.drawn).stack = s.stack := rfl
@[simp] theorem State.drawn_dt (s : State) : (s.drawn).dt = s.dt := rfl
@[simp] theorem State.drawn_st (s : State) : (s.drawn).st = s.st := rfl
@[simp] theorem State.drawn_key (s : State) : (s.drawn).key = s.key := rfl
@[simp] theorem State.drawn_fb (s : State) : (s.drawn).fb = s.fb := rfl
@[simp] theorem State.drawn_halt (s : State) : (s.drawn).halt = s.halt := rfl
@[simp] theorem State.drawn_haltInfo (s : State) : (s.drawn).haltInfo = s.haltInfo := rfl
@[simp] theorem State.drawn_draws (s : State) : (s.drawn).draws = s.draws + 1 := rfl
@[simp] theorem State.drawn_params (s : State) : (s.drawn).params = s.params := rfl
@[simp] theorem State.drawn_reg (s : State) (k : Reg) : (s.drawn).reg k = s.reg k := rfl
@[simp] theorem State.drawn_readByte (s : State) (a : Nat) : (s.drawn).readByte a = s.readByte a := rfl

/-! ### setScreen -/

@[simp] theorem State.setScreen_mem (s : State) (fb : Screen) : (s.setScreen fb).mem = s.mem := rfl
@[simp] theorem State.setScreen_v (s : State) (fb : Screen) : (s.setScreen fb).v = s.v := rfl
@[simp] theorem State.setScreen_i (s : State) (fb : Screen) : (s.setScreen fb).i = s.i := rfl
@[simp] theorem State.setScreen_pc (s : State) (fb : Screen) : (s.setScreen fb).pc = s.pc := rfl
@[simp] theorem State.setScreen_pcPlus (s : State) (fb : Screen) (k : Word) : (s.setScreen fb).pcPlus k = s.pcPlus k := rfl
@[simp] theorem State.setScreen_stack (s : State) (fb : Screen) : (s.setScreen fb).stack = s.stack := rfl
@[simp] theorem State.setScreen_dt (s : State) (fb : Screen) : (s.setScreen fb).dt = s.dt := rfl
@[simp] theorem State.setScreen_st (s : State) (fb : Screen) : (s.setScreen fb).st = s.st := rfl
@[simp] theorem State.setScreen_key (s : State) (fb : Screen) : (s.setScreen fb).key = s.key := rfl
@[simp] theorem State.setScreen_fb (s : State) (fb : Screen) : (s.setScreen fb).fb = fb := rfl
@[simp] theorem State.setScreen_halt (s : State) (fb : Screen) : (s.setScreen fb).halt = s.halt := rfl
@[simp] theorem State.setScreen_haltInfo (s : State) (fb : Screen) : (s.setScreen fb).haltInfo = s.haltInfo := rfl
@[simp] theorem State.setScreen_draws (s : State) (fb : Screen) : (s.setScreen fb).draws = s.draws := rfl
@[simp] theorem State.setScreen_params (s : State) (fb : Screen) : (s.setScreen fb).params = s.params := rfl
@[simp] theorem State.setScreen_reg (s : State) (fb : Screen) (k : Reg) : (s.setScreen fb).reg k = s.reg k := rfl
@[simp] theorem State.setScreen_readByte (s : State) (fb : Screen) (a : Nat) : (s.setScreen fb).readByte a = s.readByte a := rfl

/-! ### setKey -/

@[simp] theorem State.setKey_mem (s : State) (k : Key) (d : Bool) : (s.setKey k d).mem = s.mem := rfl
@[simp] theorem State.setKey_v (s : State) (k : Key) (d : Bool) : (s.setKey k d).v = s.v := rfl
@[simp] theorem State.setKey_i (s : State) (k : Key) (d : Bool) : (s.setKey k d).i = s.i := rfl
@[simp] theorem State.setKey_pc (s : State) (k : Key) (d : Bool) : (s.setKey k d).pc = s.pc := rfl
@[simp] theorem State.setKey_pcPlus (s : State) (k : Key) (d : Bool) (j : Word) : (s.setKey k d).pcPlus j = s.pcPlus j := rfl
@[simp] theorem State.setKey_stack (s : State) (k : Key) (d : Bool) : (s.setKey k d).stack = s.stack := rfl
@[simp] theorem State.setKey_dt (s : State) (k : Key) (d : Bool) : (s.setKey k d).dt = s.dt := rfl
@[simp] theorem State.setKey_st (s : State) (k : Key) (d : Bool) : (s.setKey k d).st = s.st := rfl
@[simp] theorem State.setKey_key (s : State) (k : Key) (d : Bool) : (s.setKey k d).key = s.key.set k d := rfl
@[simp] theorem State.setKey_fb (s : State) (k : Key) (d : Bool) : (s.setKey k d).fb = s.fb := rfl
@[simp] theorem State.setKey_halt (s : State) (k : Key) (d : Bool) : (s.setKey k d).halt = s.halt := rfl
@[simp] theorem State.setKey_haltInfo (s : State) (k : Key) (d : Bool) : (s.setKey k d).haltInfo = s.haltInfo := rfl
@[simp] theorem State.setKey_draws (s : State) (k : Key) (d : Bool) : (s.setKey k d).draws = s.draws := rfl
@[simp] theorem State.setKey_params (s : State) (k : Key) (d : Bool) : (s.setKey k d).params = s.params := rfl
@[simp] theorem State.setKey_reg (s : State) (k : Key) (d : Bool) (x : Reg) : (s.setKey k d).reg x = s.reg x := rfl
@[simp] theorem State.setKey_readByte (s : State) (k : Key) (d : Bool) (a : Nat) : (s.setKey k d).readByte a = s.readByte a := rfl

/-! ### Registers -/

@[simp] theorem State.reg_setReg_same (s : State) (x : Reg) (b : Byte) : (s.setReg x b).reg x = b := by
  simp [State.reg, State.setReg]

theorem State.reg_setReg (s : State) (x k : Reg) (b : Byte) :
    (s.setReg x b).reg k = if x = k then b else s.reg k := by
  simp only [State.reg, State.setReg, Fin.getElem_fin, Vector.getElem_set, Fin.ext_iff]

theorem State.reg_setReg_of_ne (s : State) {x k : Reg} (b : Byte) (h : k ≠ x) : (s.setReg x b).reg k = s.reg k := by
  rw [State.reg_setReg, if_neg (Ne.symm h)]

theorem State.reg_setFlag (s : State) (f : Bool) (k : Reg) :
    (s.setFlag f).reg k = if VF = k then (if f then 0x01#8 else 0x00#8) else s.reg k := State.reg_setReg ..

theorem State.reg_putReg (s : State) (x k : Reg) (b : Byte) :
    (s.putReg x b).reg k = if x = k then b else s.reg k := State.reg_setReg ..

theorem State.reg_putRegThenFlag (s : State) (d k : Reg) (b : Byte) (f : Bool) :
    (s.putRegThenFlag d b f).reg k =
      if VF = k then (if f then 0x01#8 else 0x00#8) else if d = k then b else s.reg k := by
  simp only [State.putRegThenFlag, State.advance_reg, State.reg_setFlag, State.reg_setReg]

theorem State.reg_loadRegs (s : State) (x k : Reg) (a : Nat) :
    (s.loadRegs x a).reg k = if k ≤ x then s.readByte (a + k.val) else s.reg k := by
  simp [State.reg, State.loadRegs]

/-! ### putRegThenFlag and drawAt -/

@[simp] theorem State.drawAt_mem (s : State) (cx cy : Nat) (bs : List Byte) : (s.drawAt cx cy bs).mem = s.mem := rfl
@[simp] theorem State.putRegThenFlag_mem (s : State) (d : Reg) (b : Byte) (c : Bool) : (s.putRegThenFlag d b c).mem = s.mem := rfl
@[simp] theorem State.drawAt_i (s : State) (cx cy : Nat) (bs : List Byte) : (s.drawAt cx cy bs).i = s.i := rfl
@[simp] theorem State.putRegThenFlag_i (s : State) (d : Reg) (b : Byte) (c : Bool) : (s.putRegThenFlag d b c).i = s.i := rfl
@[simp] theorem State.drawAt_pc (s : State) (cx cy : Nat) (bs : List Byte) : (s.drawAt cx cy bs).pc = s.pcPlus 2#16 := rfl
@[simp] theorem State.putRegThenFlag_pc (s : State) (d : Reg) (b : Byte) (c : Bool) : (s.putRegThenFlag d b c).pc = s.pcPlus 2#16 := rfl
@[simp] theorem State.drawAt_stack (s : State) (cx cy : Nat) (bs : List Byte) : (s.drawAt cx cy bs).stack = s.stack := rfl
@[simp] theorem State.putRegThenFlag_stack (s : State) (d : Reg) (b : Byte) (c : Bool) : (s.putRegThenFlag d b c).stack = s.stack := rfl
@[simp] theorem State.drawAt_dt (s : State) (cx cy : Nat) (bs : List Byte) : (s.drawAt cx cy bs).dt = s.dt := rfl
@[simp] theorem State.putRegThenFlag_dt (s : State) (d : Reg) (b : Byte) (c : Bool) : (s.putRegThenFlag d b c).dt = s.dt := rfl
@[simp] theorem State.drawAt_st (s : State) (cx cy : Nat) (bs : List Byte) : (s.drawAt cx cy bs).st = s.st := rfl
@[simp] theorem State.putRegThenFlag_st (s : State) (d : Reg) (b : Byte) (c : Bool) : (s.putRegThenFlag d b c).st = s.st := rfl
@[simp] theorem State.drawAt_key (s : State) (cx cy : Nat) (bs : List Byte) : (s.drawAt cx cy bs).key = s.key := rfl
@[simp] theorem State.putRegThenFlag_key (s : State) (d : Reg) (b : Byte) (c : Bool) : (s.putRegThenFlag d b c).key = s.key := rfl
@[simp] theorem State.putRegThenFlag_fb (s : State) (d : Reg) (b : Byte) (c : Bool) : (s.putRegThenFlag d b c).fb = s.fb := rfl
@[simp] theorem State.drawAt_halt (s : State) (cx cy : Nat) (bs : List Byte) : (s.drawAt cx cy bs).halt = s.halt := rfl
@[simp] theorem State.putRegThenFlag_halt (s : State) (d : Reg) (b : Byte) (c : Bool) : (s.putRegThenFlag d b c).halt = s.halt := rfl
@[simp] theorem State.drawAt_haltInfo (s : State) (cx cy : Nat) (bs : List Byte) : (s.drawAt cx cy bs).haltInfo = s.haltInfo := rfl
@[simp] theorem State.putRegThenFlag_haltInfo (s : State) (d : Reg) (b : Byte) (c : Bool) : (s.putRegThenFlag d b c).haltInfo = s.haltInfo := rfl
@[simp] theorem State.drawAt_draws (s : State) (cx cy : Nat) (bs : List Byte) : (s.drawAt cx cy bs).draws = s.draws := rfl
@[simp] theorem State.drawAt_params (s : State) (cx cy : Nat) (bs : List Byte) : (s.drawAt cx cy bs).params = s.params := rfl
@[simp] theorem State.putRegThenFlag_draws (s : State) (d : Reg) (b : Byte) (c : Bool) : (s.putRegThenFlag d b c).draws = s.draws := rfl
@[simp] theorem State.putRegThenFlag_params (s : State) (d : Reg) (b : Byte) (c : Bool) : (s.putRegThenFlag d b c).params = s.params := rfl
@[simp] theorem State.drawAt_fb (s : State) (cx cy : Nat) (bs : List Byte) :
    (s.drawAt cx cy bs).fb = (drawSprite s.fb cx cy bs).1 := rfl
@[simp] theorem State.drawAt_readByte (s : State) (cx cy : Nat) (bs : List Byte) (a : Nat) :
    (s.drawAt cx cy bs).readByte a = s.readByte a := rfl
@[simp] theorem State.putRegThenFlag_readByte (s : State) (d : Reg) (b : Byte) (c : Bool) (a : Nat) :
    (s.putRegThenFlag d b c).readByte a = s.readByte a := rfl

theorem State.reg_drawAt (s : State) (cx cy : Nat) (bs : List Byte) (k : Reg) :
    (s.drawAt cx cy bs).reg k =
      if VF = k then (if (drawSprite s.fb cx cy bs).2 then 0x01#8 else 0x00#8) else s.reg k := by
  simp only [State.drawAt, State.advance_reg, State.reg_setFlag, State.setScreen_reg]

/-! ### putRandom -/

@[simp] theorem State.putRandom_mem (s : State) (r : Byte) (x : Reg) (nn : Byte) : (s.putRandom r x nn).mem = s.mem := rfl
@[simp] theorem State.putRandom_v (s : State) (r : Byte) (x : Reg) (nn : Byte) : (s.putRandom r x nn).v = s.v.set x (r &&& nn) := rfl
@[simp] theorem State.putRandom_i (s : State) (r : Byte) (x : Reg) (nn : Byte) : (s.putRandom r x nn).i = s.i := rfl
@[simp] theorem State.putRandom_pc (s : State) (r : Byte) (x : Reg) (nn : Byte) : (s.putRandom r x nn).pc = s.pcPlus 2#16 := rfl
@[simp] theorem State.putRandom_stack (s : State) (r : Byte) (x : Reg) (nn : Byte) : (s.putRandom r x nn).stack = s.stack := rfl
@[simp] theorem State.putRandom_dt (s : State) (r : Byte) (x : Reg) (nn : Byte) : (s.putRandom r x nn).dt = s.dt := rfl
@[simp] theorem State.putRandom_st (s : State) (r : Byte) (x : Reg) (nn : Byte) : (s.putRandom r x nn).st = s.st := rfl
@[simp] theorem State.putRandom_key (s : State) (r : Byte) (x : Reg) (nn : Byte) : (s.putRandom r x nn).key = s.key := rfl
@[simp] theorem State.putRandom_fb (s : State) (r : Byte) (x : Reg) (nn : Byte) : (s.putRandom r x nn).fb = s.fb := rfl
@[simp] theorem State.putRandom_halt (s : State) (r : Byte) (x : Reg) (nn : Byte) : (s.putRandom r x nn).halt = s.halt := rfl
@[simp] theorem State.putRandom_haltInfo (s : State) (r : Byte) (x : Reg) (nn : Byte) : (s.putRandom r x nn).haltInfo = s.haltInfo := rfl
@[simp] theorem State.putRandom_draws (s : State) (r : Byte) (x : Reg) (nn : Byte) : (s.putRandom r x nn).draws = s.draws + 1 := rfl
@[simp] theorem State.putRandom_params (s : State) (r : Byte) (x : Reg) (nn : Byte) : (s.putRandom r x nn).params = s.params := rfl
@[simp] theorem State.putRandom_readByte (s : State) (r : Byte) (x : Reg) (nn : Byte) (a : Nat) :
    (s.putRandom r x nn).readByte a = s.readByte a := rfl

theorem State.reg_putRandom (s : State) (r : Byte) (x k : Reg) (nn : Byte) :
    (s.putRandom r x nn).reg k = if x = k then r &&& nn else s.reg k := State.reg_setReg ..

/-! ### The display's cells -/

theorem Screen.cell_toggle (fb : Screen) (r r' : Fin 32) (c c' : Fin 64) :
    (fb.toggle r c).cell r' c' = if r = r' ∧ c = c' then !fb.cell r c else fb.cell r' c' := by
  simp only [Screen.cell, Screen.toggle, Fin.getElem_fin, Vector.getElem_set, Fin.ext_iff]
  by_cases hr : r.val = r'.val
  · by_cases hc : c.val = c'.val <;> simp [hr, hc]
  · simp [hr]

@[simp] theorem Screen.cell_clear (r : Fin 32) (c : Fin 64) : Screen.clear.cell r c = false := by
  simp [Screen.cell, Screen.clear]

theorem Screen.ext_cell {fb fb' : Screen} (h : ∀ r c, fb.cell r c = fb'.cell r c) : fb = fb' := by
  apply Vector.ext
  intro r hr
  apply Vector.ext
  intro c hc
  exact h ⟨r, hr⟩ ⟨c, hc⟩

end Sys2Proof.Machine
end

