-- ==== Sys2Proof/Laws/Memory.lean ====
section
/-! SUPPORT. Memory: a read after a write, the bytes a write leaves alone, and the canonical form, which every memory
operation keeps and the reset memory has. -/

namespace Sys2Proof.Machine

variable {font : List Byte}

theorem Memory.wf_resetWith (p : Params) : (State.resetWith p).memWf = true := rfl

theorem Memory.wfFrom_cons {lo a : Nat} {v : Byte} {rest : Memory} :
    Memory.wfFrom font lo ((a, v) :: rest) = true ↔
      lo ≤ a ∧ a < Config.memSize ∧ v ≠ Memory.resetByte font a ∧ Memory.wfFrom font (a + 1) rest = true := by
  simp [Memory.wfFrom, and_assoc]

theorem Memory.wfFrom_mono {lo lo' : Nat} {m : Memory} (hle : lo' ≤ lo) (h : Memory.wfFrom font lo m = true) :
    Memory.wfFrom font lo' m = true := by
  cases m with
  | nil => rfl
  | cons e rest =>
    obtain ⟨a, v⟩ := e
    rw [Memory.wfFrom_cons] at h ⊢
    exact ⟨hle.trans h.1, h.2⟩

/-- Below its first possible address a canonical memory reads as reset. -/
theorem Memory.read_below {lo : Nat} {m : Memory} (h : Memory.wfFrom font lo m = true) {a : Nat} (ha : a < lo) :
    m.read font a = Memory.resetByte font a := by
  induction m generalizing lo with
  | nil => rfl
  | cons e rest ih =>
    obtain ⟨b, v⟩ := e
    rw [Memory.wfFrom_cons] at h
    rw [Memory.read, if_neg (by omega), ih h.2.2.2 (by omega)]

/-- What a read gives after a write to a canonical memory: the byte written there, or what was read before elsewhere. -/
theorem Memory.read_write {lo : Nat} {m : Memory} (h : Memory.wfFrom font lo m = true) (a b : Nat) (v : Byte) :
    (m.write font a v).read font b = if b = a then v else m.read font b := by
  induction m generalizing lo with
  | nil => by_cases hv : v = Memory.resetByte font a <;> by_cases hb : b = a <;> simp_all [Memory.write, Memory.read]
  | cons e rest ih =>
    obtain ⟨c, w⟩ := e
    obtain ⟨_, _, _, hr⟩ := Memory.wfFrom_cons.mp h
    unfold Memory.write
    split
    · next hlt =>
      split
      · next hv =>
        by_cases hb : b = a
        · subst hb
          rw [if_pos rfl, Memory.read, if_neg (by omega), Memory.read_below hr (by omega), hv]
        · rw [if_neg hb]
      · next hv => rw [Memory.read]
    · split
      · next hne heq =>
        subst heq
        split
        · next hv =>
          by_cases hb : b = a
          · subst hb
            rw [if_pos rfl, Memory.read_below hr (by omega), hv]
          · rw [if_neg hb, Memory.read, if_neg hb]
        · by_cases hb : b = a <;> simp [Memory.read, hb]
      · next h1 h2 =>
        rw [Memory.read, Memory.read, ih hr]
        by_cases hb : b = c
        · rw [if_pos hb, if_pos hb, if_neg (by omega)]
        · rw [if_neg hb, if_neg hb]

/-- A write inside the address space keeps the canonical form. -/
theorem Memory.wfFrom_write {lo : Nat} {m : Memory} (h : Memory.wfFrom font lo m = true) {a : Nat} (hlo : lo ≤ a)
    (ha : a < Config.memSize) (v : Byte) : Memory.wfFrom font lo (m.write font a v) = true := by
  induction m generalizing lo with
  | nil => by_cases hv : v = Memory.resetByte font a <;> simp_all [Memory.write, Memory.wfFrom]
  | cons e rest ih =>
    obtain ⟨c, w⟩ := e
    obtain ⟨hc, hcm, hw, hr⟩ := Memory.wfFrom_cons.mp h
    unfold Memory.write
    split
    · next hlt =>
      split
      · exact h
      · next hv => exact Memory.wfFrom_cons.mpr ⟨hlo, ha, hv, Memory.wfFrom_cons.mpr ⟨hlt, hcm, hw, hr⟩⟩
    · split
      · next heq =>
        subst heq
        split
        · exact Memory.wfFrom_mono (by omega) hr
        · next hv => exact Memory.wfFrom_cons.mpr ⟨hlo, ha, hv, hr⟩
      · exact Memory.wfFrom_cons.mpr ⟨hc, hcm, hw, ih hr (by omega)⟩

theorem Memory.wf_write {m : Memory} (h : m.wf font = true) {a : Nat} (ha : a < Config.memSize) (v : Byte) :
    (m.write font a v).wf font = true := Memory.wfFrom_write h (Nat.zero_le a) ha v

/-- Stores of several bytes inside the address space keep the canonical form. -/
theorem Memory.wf_writeBytes {m : Memory} (h : m.wf font = true) {a : Nat} {bs : List Byte}
    (ha : a + bs.length ≤ Config.memSize) : (m.writeBytes font a bs).wf font = true := by
  induction bs generalizing m a with
  | nil => exact h
  | cons b bs ih =>
    simp only [List.length_cons] at ha
    exact ih (Memory.wf_write h (by omega) b) (by omega)

/-- What a read gives after several bytes are stored: the byte stored at that place, or what was read before. -/
theorem Memory.read_writeBytes {m : Memory} (h : m.wf font = true) {a : Nat} {bs : List Byte}
    (ha : a + bs.length ≤ Config.memSize) (b : Nat) :
    (m.writeBytes font a bs).read font b = if h : a ≤ b ∧ b < a + bs.length then bs[b - a]'(by omega) else m.read font b := by
  induction bs generalizing m a with
  | nil => rw [dif_neg (by simp only [List.length_nil]; omega)]; rfl
  | cons v bs ih =>
    simp only [List.length_cons] at ha
    rw [Memory.writeBytes, ih (Memory.wf_write h (by omega) v) (by omega), Memory.read_write h]
    by_cases hab : b = a
    · subst hab
      rw [dif_neg (by omega), if_pos rfl, dif_pos (by simp only [List.length_cons]; omega)]
      simp
    · by_cases hin : a + 1 ≤ b ∧ b < a + 1 + bs.length
      · rw [dif_pos hin, dif_pos (by simp only [List.length_cons]; omega)]
        have : b - a = (b - (a + 1)) + 1 := by omega
        simp only [this, List.getElem_cons_succ]
      · rw [dif_neg hin, if_neg hab, dif_neg (by simp only [List.length_cons]; omega)]

@[simp] theorem Memory.length_readBytes (font : List Byte) (m : Memory) (a n : Nat) : (m.readBytes font a n).length = n := by
  induction n generalizing a with
  | zero => rfl
  | succ n ih => simp [Memory.readBytes, ih]

theorem Memory.getElem_readBytes (font : List Byte) (m : Memory) (a n j : Nat) (h : j < (m.readBytes font a n).length) :
    (m.readBytes font a n)[j] = m.read font (a + j) := by
  induction n generalizing a j with
  | zero => simp at h
  | succ n ih =>
    cases j with
    | zero => rfl
    | succ j =>
      simp only [Memory.readBytes, List.getElem_cons_succ]
      rw [ih]
      congr 1
      omega

/-! ### The state's memory -/

@[simp] theorem State.length_readBytes (s : State) (base n : Nat) : (s.readBytes base n).length = n :=
  Memory.length_readBytes ..

theorem State.getElem_readBytes (s : State) (base n j : Nat) (h : j < (s.readBytes base n).length) :
    (s.readBytes base n)[j] = s.readByte (base + j) := Memory.getElem_readBytes ..

/-- What a read gives after several bytes are stored, all in range: the byte stored there, or what was read before. -/
theorem State.readByte_storeBytes {s : State} (h : s.memWf = true) {base : Nat} {bytes : List Byte}
    (hb : base + bytes.length ≤ Config.memSize) (a : Nat) :
    (s.storeBytes base bytes).readByte a =
      if h : base ≤ a ∧ a < base + bytes.length then bytes[a - base]'(by omega) else s.readByte a :=
  Memory.read_writeBytes h hb a

/-- A store in range keeps the memory canonical. -/
theorem State.memWf_storeBytes {s : State} (h : s.memWf = true) {base : Nat} {bytes : List Byte}
    (hb : base + bytes.length ≤ Config.memSize) : (s.storeBytes base bytes).memWf = true :=
  Memory.wf_writeBytes h hb

end Sys2Proof.Machine
end

