-- ==== Sys2Proof/Laws/Ops.lean ====
section
/-! SUPPORT. One lemma per shared operation that says once everything it can do. -/

namespace Sys2Proof.Machine

/-! ### Bounds and faults -/

/-- An access faults exactly when it has a byte above 0xFFF, with the lowest such address (R43). -/
theorem boundsFault_eq_some {base count : Nat} {info : Word} :
    boundsFault base count = some info ↔
      count ≥ 1 ∧ base + count > 0x1000 ∧ info = BitVec.ofNat 16 (max base 0x1000) := by
  unfold boundsFault
  split
  · next h =>
    simp only [Option.some.injEq]
    exact ⟨fun e => ⟨h.1, by omega, e.symm⟩, fun e => e.2.2.symm⟩
  · next h =>
    simp only [reduceCtorEq, false_iff]
    exact fun e => h ⟨e.1, by omega⟩

theorem boundsFault_eq_none {base count : Nat} : boundsFault base count = none ↔ count = 0 ∨ base + count ≤ 0x1000 := by
  unfold boundsFault
  split
  · next h => simp only [reduceCtorEq, false_iff]; omega
  · next h => simp only [true_iff]; omega

/-- A checked access: all its bytes are in range and it goes on, or one is not and it is the entry of the bounds fault. -/
theorem State.withBytes_cases (s : State) (base count : Nat) (go : State) :
    ((count = 0 ∨ base + count ≤ 0x1000) ∧ s.withBytes base count go = go) ∨
    (count ≥ 1 ∧ base + count > 0x1000 ∧
      s.withBytes base count go = s.raise .memoryBoundsFault (BitVec.ofNat 16 (max base 0x1000))) := by
  unfold State.withBytes
  cases h : boundsFault base count with
  | none => exact .inl ⟨boundsFault_eq_none.mp h, rfl⟩
  | some info =>
    obtain ⟨h1, h2, rfl⟩ := boundsFault_eq_some.mp h
    exact .inr ⟨h1, h2, rfl⟩

theorem State.withBytes_of_le {s : State} {base count : Nat} {go : State} (h : count = 0 ∨ base + count ≤ 0x1000) :
    s.withBytes base count go = go := by
  rw [State.withBytes, boundsFault_eq_none.mpr h]

theorem State.withBytes_of_gt {s : State} {base count : Nat} {go : State} (h1 : count ≥ 1) (h : base + count > 0x1000) :
    s.withBytes base count go = s.raise .memoryBoundsFault (BitVec.ofNat 16 (max base 0x1000)) := by
  rw [State.withBytes, boundsFault_eq_some.mpr ⟨h1, h, rfl⟩]

/-- The entry of a fault changes `HALT` and `HALT_INFO` only (R205). -/
theorem faultEntry_raise (s : State) (c : HaltStatus) (w : Word) : FaultEntry c w s (s.raise c w) := by
  refine ⟨rfl, rfl, fun p hp => ?_⟩
  cases p <;> simp_all [samePart]

/-! ### The call stack -/

/-- A call: its own address is pushed, or on a full stack it is the entry of the overflow fault (R103). -/
theorem State.callWithin_cases (s : State) (depth : Nat) (target : Word) :
    (s.sp ≠ depth ∧ s.callWithin depth target = (s.push s.pc).jump target) ∨
    (s.sp = depth ∧ s.callWithin depth target = s.raise .stackOverflow s.pc) := by
  unfold State.callWithin
  split
  · next h => exact .inr ⟨h, rfl⟩
  · next h => exact .inl ⟨h, rfl⟩

/-- A return: on an empty stack only `pc + 2`; else the newest entry is popped into `pc`, then `pc + 2` (R101). -/
theorem State.popAndAdvance_cases (s : State) :
    (s.stack = [] ∧ s.popAndAdvance = s.advance) ∨
    (∃ top older, s.stack = top :: older ∧ s.popAndAdvance = (s.setStack older).jump (top + 2#16)) := by
  unfold State.popAndAdvance
  split
  · next h => exact .inl ⟨h, rfl⟩
  · next top older h =>
    refine .inr ⟨top, older, h, ?_⟩
    simp only [State.advance, State.jump, State.setStack_params, Params.cutPc_add_cutPc]

@[simp] theorem State.sp_push (s : State) (w : Word) : (s.push w).sp = s.sp + 1 := rfl

/-! ### Keys -/

theorem keyNamed_of_lt {b : Byte} (h : b.toNat < 16) : keyNamed b = some ⟨b.toNat, h⟩ := dif_pos h

theorem keyNamed_of_ge {b : Byte} (h : 16 ≤ b.toNat) : keyNamed b = none := dif_neg (by omega)

/-- A key test: the register names a key and its flag is passed on, or it is the entry of the key index fault (R204). -/
theorem State.testKey_cases (s : State) (x : Reg) (go : Bool → State) :
    (∃ h : (s.reg x).toNat < 16, s.testKey x go = go (s.keyIsDown ⟨(s.reg x).toNat, h⟩)) ∨
    (16 ≤ (s.reg x).toNat ∧ s.testKey x go = s.raise .keyIndexFault (widen (s.reg x))) := by
  unfold State.testKey
  by_cases h : (s.reg x).toNat < 16
  · exact .inl ⟨h, by rw [keyNamed_of_lt h]⟩
  · exact .inr ⟨by omega, by rw [keyNamed_of_ge (by omega)]⟩

/-- The scan finds a key that is down and below which none is. -/
theorem State.lowestKey_eq_some {s : State} {k : Key} :
    s.lowestKey = some k ↔ s.keyIsDown k = true ∧ ∀ j < k, s.keyIsDown j = false := by
  unfold State.lowestKey
  generalize s.keyIsDown = f
  rw [List.find?_eq_some_iff_getElem]
  constructor
  · rintro ⟨hk, i, hi, rfl, hlt⟩
    refine ⟨hk, fun j hj => ?_⟩
    have hj' : j.val < i := by simpa [List.getElem_finRange, Fin.lt_def] using hj
    simpa [List.getElem_finRange] using hlt j.val hj'
  · rintro ⟨hk, hlt⟩
    refine ⟨hk, k.val, by simp, by simp [List.getElem_finRange], fun j hj => ?_⟩
    simpa [List.getElem_finRange] using hlt ⟨j, by omega⟩ hj

theorem State.lowestKey_eq_none {s : State} : s.lowestKey = none ↔ ∀ k, s.keyIsDown k = false := by
  simp [State.lowestKey, List.find?_eq_none]

/-! ### Values -/

@[simp] theorem toNat_widen (b : Byte) : (widen b).toNat = b.toNat := by
  simp only [widen, BitVec.zeroExtend, BitVec.toNat_setWidth]
  omega

@[simp] theorem toNat_addressOf (a : Addr12) : (addressOf a).toNat = a.toNat := by
  simp only [addressOf, BitVec.zeroExtend, BitVec.toNat_setWidth]
  omega

theorem toNat_glyphAddress (b : Byte) : (glyphAddress b).toNat = 5 * b.toNat := by
  simp only [glyphAddress, BitVec.toNat_mul, toNat_widen, BitVec.toNat_ofNat]
  omega

theorem toNat_offsetTarget (a : Addr12) (b : Byte) : (offsetTarget a b).toNat = a.toNat + b.toNat := by
  simp only [offsetTarget, BitVec.toNat_add, toNat_widen, toNat_addressOf]
  omega

/-- A jump's target is held whole at every width (R102, R103). -/
@[simp] theorem Params.cutPc_addressOf (p : Params) (a : Addr12) : p.cutPc (addressOf a) = addressOf a :=
  p.cutPc_of_lt (by rw [toNat_addressOf]; omega)

/-- The sum of `Bnnn` is held whole at every width (R104). -/
@[simp] theorem Params.cutPc_offsetTarget (p : Params) (a : Addr12) (b : Byte) :
    p.cutPc (offsetTarget a b) = offsetTarget a b :=
  p.cutPc_of_lt (by rw [toNat_offsetTarget]; omega)

@[simp] theorem length_bcdDigits (b : Byte) : (bcdDigits b).length = 3 := rfl

@[simp] theorem State.length_regsUpTo (s : State) (x : Reg) : (s.regsUpTo x).length = regCount x := by
  simp only [State.regsUpTo, List.length_take, Vector.length_toList, regCount]
  omega

theorem State.getElem_regsUpTo (s : State) (x : Reg) (j : Nat) (h : j < (s.regsUpTo x).length) :
    (s.regsUpTo x)[j] = s.reg ⟨j, by rw [State.length_regsUpTo, regCount] at h; omega⟩ := by
  simp [State.regsUpTo, State.reg]

/-! ### One step -/

/-- Everything one step can do: nothing while halted; the bounds fault of the fetch; the decode fault; or the
instruction at `pc` (R60, R207). -/
theorem step_cases (s : State) :
    (s.halt ≠ .running ∧ step s = .next s) ∨
    (s.running ∧ s.pc.toNat > 0xFFE ∧
      step s = .next (s.raise .memoryBoundsFault (BitVec.ofNat 16 (max s.pc.toNat 0x1000)))) ∨
    (s.running ∧ s.pc.toNat ≤ 0xFFE ∧ decodeWord s.fetchWord = none ∧
      step s = .next (s.raise .decodeError s.fetchWord)) ∨
    (∃ i, s.running ∧ s.pc.toNat ≤ 0xFFE ∧ decodeWord s.fetchWord = some i ∧ step s = exec i s) := by
  unfold step State.front
  by_cases hr : s.halt = .running
  · rw [if_pos hr]
    cases hb : boundsFault s.pc.toNat 2 with
    | some info =>
      obtain ⟨_, h2, rfl⟩ := boundsFault_eq_some.mp hb
      exact .inr (.inl ⟨hr, by omega, rfl⟩)
    | none =>
      have hp : s.pc.toNat ≤ 0xFFE := by rcases boundsFault_eq_none.mp hb with h | h <;> omega
      simp only [decode]
      cases hd : decodeWord s.fetchWord with
      | none =>
        have hd' : decodeWord (wordOfBytes (s.readByte s.pc.toNat) (s.readByte (s.pc.toNat + 1))) = none := hd
        rw [hd']
        exact .inr (.inr (.inl ⟨hr, hp, rfl, rfl⟩))
      | some i =>
        have hd' : decodeWord (wordOfBytes (s.readByte s.pc.toNat) (s.readByte (s.pc.toNat + 1))) = some i := hd
        rw [hd']
        exact .inr (.inr (.inr ⟨i, hr, hp, rfl, rfl⟩))
  · rw [if_neg hr]
    exact .inl ⟨hr, rfl⟩

end Sys2Proof.Machine
end

