-- ==== Sys2Proof/Laws/PerInstr.lean ====
section
/-! SUPPORT. Facts about every instruction as syntax, one lemma per constructor. -/

namespace Sys2Proof.Laws

/-- The encoding of an instruction is a word its own row of the opcode map selects (30_encoding.md R63). -/
def EncodingSelectsRow.Statement (i : Instr) : Prop := encode i &&& (rowOf i).mask = (rowOf i).pattern

theorem EncodingSelectsRow.cls : EncodingSelectsRow.Statement .cls := by
  rfl

theorem EncodingSelectsRow.ret : EncodingSelectsRow.Statement .ret := by
  rfl

theorem EncodingSelectsRow.jp (nnn : Addr12) : EncodingSelectsRow.Statement (.jp nnn) := by
  exact packAddr_and_F000 ..

theorem EncodingSelectsRow.call (nnn : Addr12) : EncodingSelectsRow.Statement (.call nnn) := by
  exact packAddr_and_F000 ..

theorem EncodingSelectsRow.seImm (x : Reg) (nn : Byte) : EncodingSelectsRow.Statement (.seImm x nn) := by
  exact packRegByte_and_F000 ..

theorem EncodingSelectsRow.sneImm (x : Reg) (nn : Byte) : EncodingSelectsRow.Statement (.sneImm x nn) := by
  exact packRegByte_and_F000 ..

theorem EncodingSelectsRow.seReg (x : Reg) (y : Reg) : EncodingSelectsRow.Statement (.seReg x y) := by
  exact packRegReg_and_F00F ..

theorem EncodingSelectsRow.ldImm (x : Reg) (nn : Byte) : EncodingSelectsRow.Statement (.ldImm x nn) := by
  exact packRegByte_and_F000 ..

theorem EncodingSelectsRow.addImm (x : Reg) (nn : Byte) : EncodingSelectsRow.Statement (.addImm x nn) := by
  exact packRegByte_and_F000 ..

theorem EncodingSelectsRow.ldReg (x : Reg) (y : Reg) : EncodingSelectsRow.Statement (.ldReg x y) := by
  exact packRegReg_and_F00F ..

theorem EncodingSelectsRow.orReg (x : Reg) (y : Reg) : EncodingSelectsRow.Statement (.orReg x y) := by
  exact packRegReg_and_F00F ..

theorem EncodingSelectsRow.andReg (x : Reg) (y : Reg) : EncodingSelectsRow.Statement (.andReg x y) := by
  exact packRegReg_and_F00F ..

theorem EncodingSelectsRow.xorReg (x : Reg) (y : Reg) : EncodingSelectsRow.Statement (.xorReg x y) := by
  exact packRegReg_and_F00F ..

theorem EncodingSelectsRow.addReg (x : Reg) (y : Reg) : EncodingSelectsRow.Statement (.addReg x y) := by
  exact packRegReg_and_F00F ..

theorem EncodingSelectsRow.sub (x : Reg) (y : Reg) : EncodingSelectsRow.Statement (.sub x y) := by
  exact packRegReg_and_F00F ..

theorem EncodingSelectsRow.shr (x : Reg) (y : Reg) : EncodingSelectsRow.Statement (.shr x y) := by
  exact packRegReg_and_F00F ..

theorem EncodingSelectsRow.suby (x : Reg) (y : Reg) : EncodingSelectsRow.Statement (.suby x y) := by
  exact packRegReg_and_F00F ..

theorem EncodingSelectsRow.shl (x : Reg) (y : Reg) : EncodingSelectsRow.Statement (.shl x y) := by
  exact packRegReg_and_F00F ..

theorem EncodingSelectsRow.sneReg (x : Reg) (y : Reg) : EncodingSelectsRow.Statement (.sneReg x y) := by
  exact packRegReg_and_F00F ..

theorem EncodingSelectsRow.ldI (nnn : Addr12) : EncodingSelectsRow.Statement (.ldI nnn) := by
  exact packAddr_and_F000 ..

theorem EncodingSelectsRow.jpV0 (nnn : Addr12) : EncodingSelectsRow.Statement (.jpV0 nnn) := by
  exact packAddr_and_F000 ..

theorem EncodingSelectsRow.rnd (x : Reg) (nn : Byte) : EncodingSelectsRow.Statement (.rnd x nn) := by
  exact packRegByte_and_F000 ..

theorem EncodingSelectsRow.drw (x : Reg) (y : Reg) (n : Nibble) : EncodingSelectsRow.Statement (.drw x y n) := by
  exact packRegReg_and_F000 ..

theorem EncodingSelectsRow.skp (x : Reg) : EncodingSelectsRow.Statement (.skp x) := by
  exact packRegByte_and_F0FF ..

theorem EncodingSelectsRow.sknp (x : Reg) : EncodingSelectsRow.Statement (.sknp x) := by
  exact packRegByte_and_F0FF ..

theorem EncodingSelectsRow.ldVxDt (x : Reg) : EncodingSelectsRow.Statement (.ldVxDt x) := by
  exact packRegByte_and_F0FF ..

theorem EncodingSelectsRow.ldVxK (x : Reg) : EncodingSelectsRow.Statement (.ldVxK x) := by
  exact packRegByte_and_F0FF ..

theorem EncodingSelectsRow.ldDtVx (x : Reg) : EncodingSelectsRow.Statement (.ldDtVx x) := by
  exact packRegByte_and_F0FF ..

theorem EncodingSelectsRow.ldStVx (x : Reg) : EncodingSelectsRow.Statement (.ldStVx x) := by
  exact packRegByte_and_F0FF ..

theorem EncodingSelectsRow.addI (x : Reg) : EncodingSelectsRow.Statement (.addI x) := by
  exact packRegByte_and_F0FF ..

theorem EncodingSelectsRow.ldF (x : Reg) : EncodingSelectsRow.Statement (.ldF x) := by
  exact packRegByte_and_F0FF ..

theorem EncodingSelectsRow.ldB (x : Reg) : EncodingSelectsRow.Statement (.ldB x) := by
  exact packRegByte_and_F0FF ..

theorem EncodingSelectsRow.ldMemVx (x : Reg) : EncodingSelectsRow.Statement (.ldMemVx x) := by
  exact packRegByte_and_F0FF ..

theorem EncodingSelectsRow.ldVxMem (x : Reg) : EncodingSelectsRow.Statement (.ldVxMem x) := by
  exact packRegByte_and_F0FF ..

end Sys2Proof.Laws
end

