-- ==== Sys2Proof/Tests/Slice0.lean ====
section
/-! SUPPORT. Tests. Expected results come from the spec: words written out from the formats of 30_encoding.md, the source's
examples S1 to S10 and the vectors T1 to T157 of 95_test_vectors.md. Then one named witness for each statement of
Certificates/Slice0/Obligations.lean that has hypotheses, with each of its clauses at a boundary. -/

namespace Sys2Proof.Tests

open Sys2Proof Sys2Proof.Machine

/-- What a function of the state gives after one step. -/
def after {α : Type} (s : State) (f : State → α) : Option α :=
  match step s with
  | .next t => some (f t)
  | .fault _ => none
  | .refused _ => none

/-- What a function of the state gives after one event. -/
def afterEvent {α : Type} (e : Event) (s : State) (f : State → α) : Option α :=
  match applyEvent e s with
  | .next t => some (f t)
  | .fault _ => none
  | .refused _ => none

/-- The reset state with a word at 0x200. -/
def at200 (op : Word) : State := State.reset.storeAtPc op

/-- The reset state with `pc` moved and a word there. -/
def atPc (pc op : Word) : State := (State.reset.jump pc).storeAtPc op

/-- The same state on a machine of other parameters. -/
def onMachine (p : Params) (s : State) : State := { s with params := p }

/-- `HALT`, `HALT_INFO` and `pc`. -/
def haltOf (s : State) : BitVec 3 × Word × Word := (s.halt.code, s.haltInfo, s.pc)

/-- A call stack of `n` entries, each 0x0210. -/
def deep (n : Nat) (s : State) : State := s.setStack (List.replicate n 0x0210#16)

/-! ### Decoding: one word for every constructor, bit by bit from R61 and R63 -/

theorem test_decode_cls : decodeWord 0b0000000011100000#16 = some .cls := by decide
theorem test_decode_ret : decodeWord 0b0000000011101110#16 = some .ret := by decide
theorem test_decode_jp : decodeWord 0b0001001000000100#16 = some (.jp 0x204#12) := by decide
theorem test_decode_call : decodeWord 0b0010001000001100#16 = some (.call 0x20C#12) := by decide
theorem test_decode_seImm : decodeWord 0b0011111100000001#16 = some (.seImm 15 0x01#8) := by decide
theorem test_decode_sneImm : decodeWord 0b0100101000010000#16 = some (.sneImm 10 0x10#8) := by decide
theorem test_decode_seReg : decodeWord 0b0101000100100000#16 = some (.seReg 1 2) := by decide
theorem test_decode_ldImm : decodeWord 0b0110101000101011#16 = some (.ldImm 10 0x2B#8) := by decide
theorem test_decode_addImm : decodeWord 0b0111001100001010#16 = some (.addImm 3 0x0A#8) := by decide
theorem test_decode_ldReg : decodeWord 0b1000111011110000#16 = some (.ldReg 14 15) := by decide
theorem test_decode_orReg : decodeWord 0b1000000100100001#16 = some (.orReg 1 2) := by decide
theorem test_decode_andReg : decodeWord 0b1000000100100010#16 = some (.andReg 1 2) := by decide
theorem test_decode_xorReg : decodeWord 0b1000000100100011#16 = some (.xorReg 1 2) := by decide
theorem test_decode_addReg : decodeWord 0b1000000100100100#16 = some (.addReg 1 2) := by decide
theorem test_decode_sub : decodeWord 0b1000000100100101#16 = some (.sub 1 2) := by decide
theorem test_decode_shr : decodeWord 0b1000000100100110#16 = some (.shr 1 2) := by decide
theorem test_decode_suby : decodeWord 0b1000000100100111#16 = some (.suby 1 2) := by decide
theorem test_decode_shl : decodeWord 0b1000000100101110#16 = some (.shl 1 2) := by decide
theorem test_decode_sneReg : decodeWord 0b1001000100100000#16 = some (.sneReg 1 2) := by decide
theorem test_decode_ldI : decodeWord 0b1010001100000000#16 = some (.ldI 0x300#12) := by decide
theorem test_decode_jpV0 : decodeWord 0b1011001100000000#16 = some (.jpV0 0x300#12) := by decide
theorem test_decode_rnd : decodeWord 0b1100001100001111#16 = some (.rnd 3 0x0F#8) := by decide
theorem test_decode_drw : decodeWord 0b1101000100100101#16 = some (.drw 1 2 5#4) := by decide
theorem test_decode_skp : decodeWord 0b1110001010011110#16 = some (.skp 2) := by decide
theorem test_decode_sknp : decodeWord 0b1110001010100001#16 = some (.sknp 2) := by decide
theorem test_decode_ldVxDt : decodeWord 0b1111010000000111#16 = some (.ldVxDt 4) := by decide
theorem test_decode_ldVxK : decodeWord 0b1111001100001010#16 = some (.ldVxK 3) := by decide
theorem test_decode_ldDtVx : decodeWord 0b1111001100010101#16 = some (.ldDtVx 3) := by decide
theorem test_decode_ldStVx : decodeWord 0b1111010100011000#16 = some (.ldStVx 5) := by decide
theorem test_decode_addI : decodeWord 0b1111001000011110#16 = some (.addI 2) := by decide
theorem test_decode_ldF : decodeWord 0b1111000000101001#16 = some (.ldF 0) := by decide
theorem test_decode_ldB : decodeWord 0b1111000000110011#16 = some (.ldB 0) := by decide
theorem test_decode_ldMemVx : decodeWord 0b1111001001010101#16 = some (.ldMemVx 2) := by decide
theorem test_decode_ldVxMem : decodeWord 0b1111001001100101#16 = some (.ldVxMem 2) := by decide

/-- The bytes of a word in memory order, high byte first (R42), with what follows left over. -/
theorem test_decode_bytes : decode [0x22#8, 0x0C#8, 0x00#8] = .instr (.call 0x20C#12) [0x00#8] := by decide
theorem test_decode_truncated : decode [0x22#8] = .truncated := by decide
theorem test_encode_bytes : encodeBytes (.drw 1 2 5#4) = [0xD1#8, 0x25#8] := by decide
theorem test_table_word : decodeTableWord 16 0x8127 = some (.suby 1 2) := by decide
theorem test_fetch_word : after (State.reset.withFetchWord 16 0x6A2B) (fun t => t.reg 10) = some 0x2B#8 := by decide

/-- The edge words of 95_test_vectors.md section 2.8 that are legal. -/
theorem test_edge_words_legal :
    ([0x00E0#16, 0x00EE, 0x5FF0, 0x9000, 0x8FFE, 0x8007, 0xE09E, 0xEFA1, 0xFF65, 0xD000, 0x1000, 0xBFFF].map
      fun op => (decodeWord op).isSome) = List.replicate 12 true := by decide

/-! ### What the checks of WellFormed and of the boot order refuse -/

theorem test_ill_group0 : ([0x0000#16, 0x0123, 0x00E1, 0x00FE, 0x01E0].map legalWord) = List.replicate 5 false := by decide
theorem test_ill_group5 : ([0x5011#16, 0x512F].map legalWord) = List.replicate 2 false := by decide
theorem test_ill_group8 : ([0x8128#16, 0x812D, 0x812F].map legalWord) = List.replicate 3 false := by decide
theorem test_ill_group9 : legalWord 0x9121#16 = false := by decide
theorem test_ill_groupE : ([0xE19F#16, 0xE1A0, 0xE000].map legalWord) = List.replicate 3 false := by decide
theorem test_ill_groupF :
    ([0xF1FF#16, 0xF100, 0xF175, 0xF185, 0xF130, 0xF102].map legalWord) = List.replicate 6 false := by decide
theorem test_ill_words_not_decoded :
    ([0x0000#16, 0x0123, 0x00E1, 0x00FE, 0x01E0, 0x5011, 0x512F, 0x8128, 0x812D, 0x812F, 0x9121, 0xE19F, 0xE1A0, 0xE000,
      0xF1FF, 0xF100, 0xF175, 0xF185, 0xF130, 0xF102].map fun op => (decodeWord op).isSome) =
      List.replicate 20 false := by decide
theorem test_ill_image : imageFits (List.replicate 3585 0x00#8) = false :=
  decide_eq_false (by rw [List.length_replicate]; omega)
theorem test_ill_key : keyIndexFits 16 = false := by decide
theorem test_ill_boot_step_first : bootLegal .off [.step] = false := by decide
theorem test_ill_boot_step_before_load : bootLegal .off [.reset, .step] = false := by decide
theorem test_ill_boot_two_loads : bootLegal .off [.reset, .load [], .load []] = false := by decide
theorem test_ill_memory_order : Memory.wf Params.default.font [(0x301, 0x01#8), (0x300, 0x01#8)] = false := by decide
theorem test_ill_memory_default : Memory.wf Params.default.font [(0x300, 0x00#8)] = false := by decide
theorem test_ill_memory_outside : Memory.wf Params.default.font [(0x1000, 0x01#8)] = false := by decide

/-! ### Control flow (T1 to T22) -/

theorem test_jp : after (atPc 0x020A 0x1204) (·.pc) = some 0x0204#16 := by decide
theorem test_jp_to_last_byte_then_faults :
    after ((atPc 0x0FFF 0x1204)) haltOf = some (3#3, 0x1000#16, 0x0FFF#16) := by decide
theorem test_call : after (atPc 0x0204 0x220C) (fun t => (t.stackEntry 0, t.sp, t.pc)) =
    some (some 0x0204#16, 1, 0x020C#16) := by decide
theorem test_call_overflow : after (deep 16 (atPc 0x0250 0x2300)) (fun t => (haltOf t, t.sp)) =
    some ((2#3, 0x0250#16, 0x0250#16), 16) := by decide
theorem test_ret_two_entries :
    after ((atPc 0x0400 0x00EE).setStack [0x0330#16, 0x0210#16]) (fun t => (t.sp, t.pc, t.stackEntry 0)) =
    some (1, 0x0332#16, some 0x0210#16) := by decide
theorem test_ret_empty : after (atPc 0x0300 0x00EE) (fun t => (t.sp, t.pc)) = some (0, 0x0302#16) := by decide
theorem test_jpV0_unmasked : after ((at200 0xBFFF).setReg 0 0xFF) (·.pc) = some 0x10FE#16 := by decide
theorem test_jpV0_uses_v0 : after (((at200 0xB2FF).setReg 0 0x02).setReg 2 0x99) (·.pc) = some 0x0301#16 := by decide
theorem test_seImm_skips : after (atPc 0x0208 0x3000) (·.pc) = some 0x020C#16 := by decide
theorem test_seImm_not : after ((atPc 0x0208 0x3000).setReg 0 1) (·.pc) = some 0x020A#16 := by decide
theorem test_sneImm_skips : after ((atPc 0x0300 0x4A10).setReg 10 0x11) (·.pc) = some 0x0304#16 := by decide
theorem test_sneImm_not : after ((atPc 0x0300 0x4A10).setReg 10 0x10) (·.pc) = some 0x0302#16 := by decide
theorem test_seReg_not :
    after (((atPc 0x0220 0x5120).setReg 1 7).setReg 2 8) (·.pc) = some 0x0222#16 := by decide
theorem test_seReg_same : after ((at200 0x5330).setReg 3 0x99) (·.pc) = some 0x0204#16 := by decide
theorem test_sneReg_skips :
    after (((atPc 0x0220 0x9120).setReg 1 7).setReg 2 8) (·.pc) = some 0x0224#16 := by decide
theorem test_sneReg_same : after ((at200 0x9330).setReg 3 0x99) (·.pc) = some 0x0202#16 := by decide
theorem test_skip_past_the_end : after (atPc 0x0FFC 0x3000) (·.pc) = some 0x1000#16 := by decide

/-- On a machine whose stack holds one entry the second call overflows (R5: the capacity is a parameter). -/
theorem test_call_other_depth :
    after (onMachine { Params.default with stackDepth := 1 } (deep 1 (atPc 0x0250 0x2300))) haltOf =
    some (2#3, 0x0250#16, 0x0250#16) := by decide
/-- The largest `pc` a rule computes is held whole at 13 bits (U11). -/
theorem test_jpV0_narrow_counter :
    after (onMachine { Params.default with pcBitsBeyond13 := 0 } ((at200 0xBFFF).setReg 0 0xFF)) (·.pc) =
    some 0x10FE#16 := by decide

/-! ### Loads, arithmetic, logic, shifts, random (S1 to S3, T30 to T83) -/

theorem test_ldImm_vf : after ((at200 0x6F77).setReg 15 1) (·.reg 15) = some 0x77#8 := by decide
theorem test_addImm_wraps : after (((at200 0x730A).setReg 3 0xFA).setReg 15 0x55) (fun t => [t.reg 3, t.reg 15]) =
    some [0x04#8, 0x55#8] := by decide
theorem test_ldReg : after (((at200 0x8120).setReg 1 0x11).setReg 2 0x22) (fun t => [t.reg 1, t.reg 2]) =
    some [0x22#8, 0x22#8] := by decide
theorem test_orReg : after ((((at200 0x8121).setReg 1 0xF0).setReg 2 0x0F).setReg 15 0x55) (fun t => [t.reg 1, t.reg 15]) =
    some [0xFF#8, 0x55#8] := by decide
theorem test_andReg : after ((((at200 0x8122).setReg 1 0xF3).setReg 2 0x3F).setReg 15 0x55) (fun t => [t.reg 1, t.reg 15]) =
    some [0x33#8, 0x55#8] := by decide
theorem test_xorReg : after ((((at200 0x8123).setReg 1 0xFF).setReg 2 0x0F).setReg 15 0x55) (fun t => [t.reg 1, t.reg 15]) =
    some [0xF0#8, 0x55#8] := by decide
theorem test_xorReg_vf : after (((at200 0x8F13).setReg 15 0x0F).setReg 1 0xFF) (·.reg 15) = some 0xF0#8 := by decide
theorem test_addReg_carry : after (((at200 0x8124).setReg 1 0xC8).setReg 2 0x64) (fun t => [t.reg 1, t.reg 2, t.reg 15]) =
    some [0x2C#8, 0x64#8, 0x01#8] := by decide
theorem test_addReg_vf : after (((at200 0x8F14).setReg 1 0x20).setReg 15 0xF0) (fun t => [t.reg 1, t.reg 15]) =
    some [0x20#8, 0x01#8] := by decide
theorem test_sub_borrow : after (((at200 0x8125).setReg 1 5).setReg 2 10) (fun t => [t.reg 1, t.reg 2, t.reg 15]) =
    some [0xFB#8, 0x0A#8, 0x00#8] := by decide
theorem test_sub_from_vf : after (((at200 0x81F5).setReg 1 9).setReg 15 0x0A) (fun t => [t.reg 1, t.reg 15]) =
    some [0xFF#8, 0x00#8] := by decide
theorem test_shr : after (((at200 0x8126).setReg 1 2).setReg 2 9) (fun t => [t.reg 1, t.reg 2, t.reg 15]) =
    some [0x04#8, 0x09#8, 0x00#8] := by decide
theorem test_shr_from_vf : after (((at200 0x81F6).setReg 1 3).setReg 15 0xFE) (fun t => [t.reg 1, t.reg 15]) =
    some [0x00#8, 0x01#8] := by decide
theorem test_suby : after (((at200 0x8127).setReg 1 10).setReg 2 5) (fun t => [t.reg 1, t.reg 2, t.reg 15]) =
    some [0x0A#8, 0xFB#8, 0x00#8] := by decide
theorem test_suby_to_vf : after (((at200 0x81F7).setReg 1 2).setReg 15 1) (fun t => [t.reg 1, t.reg 15]) =
    some [0x02#8, 0x00#8] := by decide
theorem test_shl : after (((at200 0x812E).setReg 1 0x81).setReg 2 0) (fun t => [t.reg 1, t.reg 2, t.reg 15]) =
    some [0x02#8, 0x00#8, 0x01#8] := by decide
theorem test_shl_vf : after ((at200 0x8F0E).setReg 15 0x80) (·.reg 15) = some 0x02#8 := by decide
theorem test_rnd_mask : (State.reset.putRandom 0xA7 3 0x0F).reg 3 = 0x07#8 := by decide
theorem test_rnd_counts : after (at200 0xC30F) (fun t => (t.pc, t.draws)) = some (0x0202#16, 1) := by decide

/-! ### Address register and memory transfer (T90 to T110) -/

theorem test_ldI : after ((at200 0xAFFF).setI 0x1234) (·.i) = some 0x0FFF#16 := by decide
theorem test_addI_past_memory : after (((at200 0xF21E).setI 0x0FFE).setReg 2 5) (fun t => (t.i, t.reg 15)) =
    some (0x1003#16, 0x00#8) := by decide
theorem test_addI_wraps : after (((at200 0xF11E).setI 0xFFFF).setReg 1 1) (·.i) = some 0x0000#16 := by decide
theorem test_ldF_whole_register : after ((at200 0xF329).setReg 3 0xFF) (·.i) = some 0x04FB#16 := by decide
theorem test_ldB : after (((at200 0xF033).setReg 0 157).setI 0x0300) (fun t => (t.readBytes 0x300 3, t.i)) =
    some ([1#8, 5#8, 7#8], 0x0300#16) := by decide
theorem test_ldB_faults : after (((at200 0xF033).setReg 0 9).setI 0x0FFE) (fun t => (haltOf t, t.readBytes 0xFFE 2)) =
    some ((3#3, 0x1000#16, 0x0200#16), [0#8, 0#8]) := by decide
theorem test_ldMemVx :
    after ((((((at200 0xF255).setReg 0 0x11).setReg 1 0x22).setReg 2 0x33).setReg 3 0x44).setI 0x0300)
      (fun t => (t.readBytes 0x300 4, t.i)) = some ([0x11#8, 0x22#8, 0x33#8, 0x00#8], 0x0303#16) := by decide
theorem test_ldMemVx_faults : after ((at200 0xF155).setI 0x2345) (fun t => (haltOf t, t.i)) =
    some ((3#3, 0x2345#16, 0x0200#16), 0x2345#16) := by decide
theorem test_ldVxMem :
    after ((((at200 0xF265).storeBytes 0x300 [1, 5, 7, 9]).setReg 3 0xEE).setI 0x0300)
      (fun t => ([t.reg 0, t.reg 1, t.reg 2, t.reg 3], t.i)) =
    some ([0x01#8, 0x05#8, 0x07#8, 0xEE#8], 0x0303#16) := by decide
theorem test_ldVxMem_glyphA : after ((at200 0xF065).setI 0x0032) (fun t => (t.reg 0, t.i)) =
    some (0xF0#8, 0x0033#16) := by decide

/-! ### Display (T120 to T130) -/

/-- The state of T125: glyph A at column 62, row 30, so that it wraps over both edges. -/
def wrapped : State := (((at200 0xD125).setI 0x0032).setReg 1 62).setReg 2 30

theorem test_drw_wraps :
    after wrapped (fun t => ([t.fb.cell 30 62, t.fb.cell 30 1, t.fb.cell 31 62, t.fb.cell 31 63, t.fb.cell 0 0,
      t.fb.cell 2 1, t.fb.cell 2 0, t.fb.cell 3 62], t.reg 15)) =
    some ([true, true, true, false, true, true, false, false], 0x00#8) := by decide
theorem test_drw_origin_from_vf :
    after ((((at200 0xDFF1).setReg 15 5).setI 0x0300).storeBytes 0x300 [0x80])
      (fun t => ([t.fb.cell 5 5, t.fb.cell 0 0, t.fb.cell 5 4], t.reg 15)) =
    some ([true, false, false], 0x00#8) := by decide
theorem test_cls : after ((at200 0x00E0).setScreen (Screen.clear.toggle 31 63)) (·.fb) = some Screen.clear := by decide

/-! ### Timers, keys and host events (T140 to T157) -/

theorem test_ldVxDt : after ((at200 0xF407).setDt 0x2A) (fun t => (t.reg 4, t.dt)) = some (0x2A#8, 0x2A#8) := by decide
theorem test_ldDtVx : after ((at200 0xF315).setReg 3 7) (·.dt) = some 0x07#8 := by decide
theorem test_ldStVx : after ((at200 0xF518).setReg 5 0x1E) (·.st) = some 0x1E#8 := by decide
theorem test_skp : after (((atPc 0x0210 0xE29E).setReg 2 7).setKey 7 true) (·.pc) = some 0x0214#16 := by decide
theorem test_skp_faults : after ((at200 0xE09E).setReg 0 0x10) haltOf = some (4#3, 0x0010#16, 0x0200#16) := by decide
theorem test_sknp : after (((atPc 0x0210 0xE2A1).setReg 2 15).setKey 15 true) (·.pc) = some 0x0212#16 := by decide
theorem test_sknp_faults : after ((at200 0xE0A1).setReg 0 0xFF) haltOf = some (4#3, 0x00FF#16, 0x0200#16) := by decide
theorem test_ldVxK_waits : after (at200 0xF30A) (fun t => decide (t = at200 0xF30A)) = some true := by decide
theorem test_ldVxK_lowest : after (((at200 0xF30A).setKey 7 true).setKey 12 true) (fun t => (t.reg 3, t.pc)) =
    some (0x07#8, 0x0202#16) := by decide
theorem test_tick_floors : afterEvent .tick ((State.reset.setDt 0).setSt 1) (fun t => (t.dt, t.st)) =
    some (0x00#8, 0x00#8) := by decide
theorem test_tick_halted : afterEvent .tick ((State.reset.setDt 5).raise .decodeError 0) (·.dt) = some 0x05#8 := by decide
theorem test_keyUp : afterEvent (.keyUp 7) (State.reset.setKey 7 true) (·.keyIsDown 7) = some false := by decide
theorem test_decode_fault : after (at200 0x8128) haltOf = some (1#3, 0x8128#16, 0x0200#16) := by decide
theorem test_load_high_byte_first :
    afterEvent (.load [0x22, 0x0C]) State.reset (fun t => t.fetchWord) = some 0x220C#16 := by decide
theorem test_reset_memory :
    (State.reset.readBytes 50 5, State.reset.readByte 80, State.reset.readByte 4095) =
    ([0xF0#8, 0x90#8, 0xF0#8, 0x90#8, 0x90#8], 0x00#8, 0x00#8) := by decide
theorem test_reset_event : afterEvent .reset ((deep 3 wrapped).raise .keyIndexFault 0x20) (fun t => decide (t = State.reset)) =
    some true := by decide

/-! ### Witnesses: every hypothesis of every statement is met, each clause at a boundary of its range -/

/-- Canonical, no fault, at the last fetchable address, with a full stack. -/
def edge : State := deep 16 (atPc 0x0FFE 0x8124)

theorem edge_inv : edge.Inv where
  mem_wf := by decide
  sp_le := by decide
  entries := fun w h => by rw [List.eq_of_mem_replicate h]; decide
  pc_le := by decide
  info_zero := fun _ => rfl

/-- A halted state. -/
def halted : State := (at200 0x8124).raise .decodeError 0x0000

theorem test_witness_EncodeOfDecodeGivesTheWord : decodeWord 0x8124#16 = some (.addReg 1 2) := by decide

theorem test_witness_DecoderAgreesWithTheOpcodeMap :
    decodeWord 0x8124#16 = some (.addReg 1 2) ∧
    (∃ r ∈ opcodeMap, rowSelects r 0x8124#16 = true) := by decide

theorem test_witness_StepRunsTheDecodedInstruction :
    edge.running ∧ edge.pc.toNat ≤ 0xFFE ∧
    decode [edge.readByte edge.pc.toNat, edge.readByte (edge.pc.toNat + 1)] = .instr (.addReg 1 2) [] := by decide

theorem test_witness_StepIsFetchDecodeExecute :
    ¬ halted.running ∧
    ((atPc 0x0FFF 0).running ∧ (atPc 0x0FFF 0).pc.toNat > 0xFFE) ∧
    ((at200 0x8128).running ∧ (at200 0x8128).pc.toNat ≤ 0xFFE ∧ (∀ r ∈ opcodeMap, 0x8128#16 &&& r.mask ≠ r.pattern)) ∧
    (edge.running ∧ edge.pc.toNat ≤ 0xFFE ∧ ∃ r ∈ opcodeMap, 0x8124#16 &&& r.mask = r.pattern) := by decide

theorem test_witness_FaultsArePrecise : ∃ s t : State, s.running ∧ step s = .next t ∧ ¬ t.running :=
  ⟨at200 0x8128, _, by decide, rfl, by decide⟩

theorem test_witness_OnlyTheNamedInstructionsFault :
    (∃ s t : State, s.running ∧ exec (.call 0x300#12) s = .next t ∧ ¬ t.running) ∧
    (∃ s t : State, s.running ∧ exec (.ldMemVx 1) s = .next t ∧ ¬ t.running) ∧
    (∃ s t : State, s.running ∧ exec (.sknp 0) s = .next t ∧ ¬ t.running) :=
  ⟨⟨edge, _, by decide, rfl, by decide⟩, ⟨State.reset.setI 0x0FFF, _, by decide, rfl, by decide⟩,
    ⟨State.reset.setReg 0 16, _, by decide, rfl, by decide⟩⟩

theorem test_witness_HaltedMachineIsFrozenUntilReset :
    ¬ halted.running ∧ Event.tick ≠ .reset ∧ (∀ bytes, Event.tick = .load bytes → bytes.length ≤ 3584) ∧
    Event.load (List.replicate 3584 0x00#8) ≠ .reset ∧
    (∀ bytes, Event.load (List.replicate 3584 0x00#8) = .load bytes → bytes.length ≤ 3584) :=
  ⟨by decide, by decide, nofun, nofun, fun _ h => by
    cases h
    exact List.length_replicate.le⟩

theorem test_witness_EveryStepKeepsInv : edge.Inv ∧ ∃ t, step edge = .next t := ⟨edge_inv, _, rfl⟩

theorem test_witness_EveryRunOfEventsKeepsInv :
    edge.Inv ∧ ∃ t, runEvents .loaded [.tick, .step, .keyDown 15] edge = .next t := ⟨edge_inv, _, rfl⟩

theorem test_witness_EveryLegalRunCompletes :
    bootLegal .off [.reset, .keyDown 3, .load [0x12, 0x00], .step, .tick] = true ∧
    (∀ bytes, Event.load bytes ∈ [.reset, .keyDown 3, .load [0x12, 0x00], .step, .tick] → bytes.length ≤ 3584) :=
  ⟨by decide, fun bytes h => by simp at h; subst h; decide⟩

theorem test_witness_EveryInstructionKeepsMemoryCanonical :
    ∃ t, edge.memWf = true ∧ exec (.ldMemVx 15) edge = .next t :=
  ⟨_, by decide, rfl⟩

theorem test_witness_CanonicalMemoriesThatReadAlikeAreEqual :
    ∃ (font : List Byte) (m m' : Memory), m ≠ [] ∧ m.wf font = true ∧ m'.wf font = true ∧
      ∀ a, m.read font a = m'.read font a :=
  ⟨[], [(0x300, 1#8)], [(0x300, 1#8)], by decide, by decide, by decide, fun _ => rfl⟩

theorem test_witness_StateIsWrittenOnlyByTheNamedInstructions :
    (∃ t, exec (.rnd 0 0#8) edge = .next t) ∧ (∃ t, exec .cls edge = .next t) ∧
    (∀ x, Instr.rnd 0 0#8 ≠ .ldB x ∧ Instr.rnd 0 0#8 ≠ .ldMemVx x) ∧
    (∀ n x, Instr.rnd 0 0#8 ≠ .ldI n ∧ Instr.rnd 0 0#8 ≠ .addI x ∧ Instr.rnd 0 0#8 ≠ .ldF x ∧
      Instr.rnd 0 0#8 ≠ .ldMemVx x ∧ Instr.rnd 0 0#8 ≠ .ldVxMem x) ∧
    (∀ n, Instr.rnd 0 0#8 ≠ .call n ∧ Instr.rnd 0 0#8 ≠ .ret) ∧
    (∀ x, Instr.rnd 0 0#8 ≠ .ldDtVx x) ∧ (∀ x, Instr.rnd 0 0#8 ≠ .ldStVx x) ∧
    (∀ x y n, Instr.rnd 0 0#8 ≠ .cls ∧ Instr.rnd 0 0#8 ≠ .drw x y n) ∧ (∀ x nn, Instr.cls ≠ .rnd x nn) ∧
    (1 : Reg) ∉ writtenRegs (.rnd 0 0#8) ∧ executeFault .cls = none ∧
    (∃ t, edge.running ∧ exec (.call 0#12) edge = .next t ∧ ¬ t.running) :=
  ⟨⟨_, rfl⟩, ⟨_, rfl⟩, by simp, by simp, by simp, by simp, by simp, by simp, by simp, by decide, rfl,
    _, by decide, rfl, by decide⟩

theorem test_witness_RegistersAreWrittenOnlyAsTheTableSays :
    (∃ t, exec (.suby 1 2) edge = .next t) ∧ (3 : Reg) ∉ writtenRegs (.suby 1 2) := ⟨⟨_, rfl⟩, by decide⟩

theorem test_witness_CounterMovesInTheStatedWay :
    (∃ t, edge.running ∧ exec .ret edge = .next t ∧ t.running) ∧
    (∃ t, edge.running ∧ exec (.call 0#12) edge = .next t ∧ ¬ t.running) :=
  ⟨⟨_, by decide, rfl, by decide⟩, ⟨_, by decide, rfl, by decide⟩⟩

/-- `F055` at 0x200 with `I = 0x203` stores the low byte of the next word alone, `F033` with `I = 0xFFD` is at the edge of
memory; with `V[0] = 0xE0` the first makes the next word 00E0. -/
theorem test_witness_NextFetchSeesTheStore :
    (∃ t, ((at200 0xF055).setI 0x0203).memWf = true ∧ ((at200 0xF055).setI 0x0203).running ∧
      ((at200 0xF055).setI 0x0203).i.toNat + (0 : Reg).val ≤ 0xFFF ∧
      exec (.ldMemVx 0) ((at200 0xF055).setI 0x0203) = .next t) ∧
    (∃ t, ((at200 0xF033).setI 0x0FFD).memWf = true ∧ ((at200 0xF033).setI 0x0FFD).running ∧
      ((at200 0xF033).setI 0x0FFD).i.toNat + 2 ≤ 0xFFF ∧
      exec (.ldB 0) ((at200 0xF033).setI 0x0FFD) = .next t) ∧
    (((at200 0xF055).setI 0x0203).pcPlus 2).toNat ≤ 0xFFE ∧
    (∃ i, decodeWord (overlaid (((at200 0xF055).setReg 0 0xE0).setI 0x0203) 1 (fun _ => 0xE0#8) 0x0202 ++
      overlaid (((at200 0xF055).setReg 0 0xE0).setI 0x0203) 1 (fun _ => 0xE0#8) 0x0203) = some i) :=
  ⟨⟨_, by decide, by decide, by decide, rfl⟩, ⟨_, by decide, by decide, by decide, rfl⟩, by decide, .cls, by decide⟩

/-- A run on the narrowest and on the default width, from a state that has the invariant. -/
theorem test_witness_EveryCounterWidthBehavesAlike :
    edge.Inv ∧ (∃ t, runEvents .loaded [.tick, .step, .reset] edge = .next t) ∧
    (withPcBitsBeyond13 edge 0).params.pcBits = 13 := ⟨edge_inv, ⟨_, rfl⟩, rfl⟩

theorem test_witness_ParametersAreFixedForARun : ∃ t, runEvents .ready [.load [0x12, 0x00], .step] halted = .next t :=
  ⟨_, rfl⟩

theorem test_witness_SelfJumpIsAFixedPoint : (at200 0x1200).endOfRun := ⟨by decide, by decide, 0x200#12, by decide, by decide⟩

theorem test_witness_RetPopsThenAdvances : State.reset.sp = 0 ∧ edge.sp > 0 := by decide

theorem test_witness_CallPushesItsOwnAddress : 
    (deep 15 edge).sp ≠ (deep 15 edge).params.stackDepth ∧ edge.sp = edge.params.stackDepth := by decide

theorem test_witness_CallThenReturnRoundTrips :
    (∃ u, (deep 15 edge).running ∧ exec (.call 0x300#12) (deep 15 edge) = .next u ∧ u.running) ∧
    State.reset.sp < 1 :=
  ⟨⟨_, by decide, rfl, by decide⟩, by decide⟩

theorem test_witness_SkipsOnAnImmediate : State.reset.reg 15 = 0x00#8 ∧ State.reset.reg 15 ≠ 0xFF#8 := by decide

theorem test_witness_SkipsOnTwoRegisters :
    State.reset.reg 0 = State.reset.reg 15 ∧ (State.reset.setReg 0 0xFF).reg 0 ≠ (State.reset.setReg 0 0xFF).reg 15 ∧
    (1 : Nibble) ≠ 0 := by decide

theorem test_witness_JpSetsTheCounter : State.reset.running ∧ 0xFFF#12 = 0xFFF#12 := by decide

theorem test_witness_JpV0AddsWithoutMask :
    State.reset.running ∧ ∃ t, exec (.jpV0 0xFFF#12) State.reset = .next t ∧ t.pc.toNat > 0xFFE :=
  ⟨by decide, _, rfl, by decide⟩

theorem test_witness_AddSetsSumThenCarry : (14 : Reg) ≠ 15 := by decide

theorem test_witness_SubSetsDifferenceThenNotBorrow : (0 : Reg) ≠ 15 := by decide

theorem test_witness_SubyWritesVyThenNotBorrow : (14 : Reg) ≠ 15 := by decide

theorem test_witness_ShrTakesFlagFromVxAndValueFromVy :
    ((14 : Reg) ≠ 15 ∧ (14 : Reg) ≠ 15) ∧ ((15 : Reg) = 15 ∧ (14 : Reg) ≠ 15) ∧
    ((15 : Reg) = 15 ∧ (0 : Reg) ≠ 15) ∧ ((15 : Reg) = 15 ∧ (15 : Reg) = 15) := by decide

theorem test_witness_ShlIgnoresVy : (14 : Reg) ≠ 15 ∧ ((State.reset.setReg 15 0x80).reg 15).toNat ≥ 0x80 := by decide

theorem test_witness_BcdStoresThreeDigits :
    (State.reset.setI 0x0FFD).memWf = true ∧ (State.reset.setI 0x0FFD).i.toNat + 2 ≤ 0xFFF ∧
    (State.reset.setI 0x0FFE).i.toNat + 2 > 0xFFF := by decide

theorem test_witness_StoreRegistersThenAdvanceI :
    (State.reset.setI 0x0FF0).memWf = true ∧ (State.reset.setI 0x0FF0).i.toNat + (15 : Reg).val ≤ 0xFFF ∧
    (State.reset.setI 0x0FF1).i.toNat + (15 : Reg).val > 0xFFF := by decide

theorem test_witness_LoadRegistersThenAdvanceI :
    (State.reset.setI 0x0FFF).i.toNat + (0 : Reg).val ≤ 0xFFF ∧
    (State.reset.setI 0x1000).i.toNat + (0 : Reg).val > 0xFFF := by decide

theorem test_witness_DrawInvertsExactlyTheCoveredCells :
    (0#4 = 0 ∨ (State.reset.setI 0xFFFF).i.toNat + (0#4).toNat ≤ 0x1000) ∧
    (5#4 = 0 ∨ wrapped.i.toNat + (5#4).toNat ≤ 0x1000) ∧
    (1#4 ≠ 0 ∧ (State.reset.setI 0x0FFF).i.toNat + (1#4).toNat = 0x1000) ∧
    (spriteCovers wrapped 1 2 5#4 30 62 ∧ (wrapped.setScreen (Screen.clear.toggle 30 62)).fb.cell 30 62 = true) ∧
    ¬ spriteCovers wrapped 1 2 5#4 31 63 := by
  refine ⟨by decide, by decide, by decide, ⟨?_, by decide⟩, ?_⟩ <;> unfold spriteCovers <;> decide

theorem test_witness_DrawOutsideMemoryFaults :
    2#4 ≠ 0 ∧ (State.reset.setI 0x0FFF).i.toNat + (2#4).toNat > 0x1000 := by decide

theorem test_witness_DrawingTwiceRestoresTheDisplay :
    (∃ t u, (1 : Reg) ≠ 15 ∧ (2 : Reg) ≠ 15 ∧ (5#4 = 0 ∨ wrapped.i.toNat + (5#4).toNat ≤ 0x1000) ∧
      exec (.drw 1 2 5#4) wrapped = .next t ∧ exec (.drw 1 2 5#4) t = .next u) ∧
    (∀ r c, wrapped.fb.cell r c = false) ∧ (∃ r c, spriteCovers wrapped 1 2 5#4 r c) := by
  refine ⟨⟨_, _, by decide, by decide, by decide, rfl, rfl⟩, ?_, 30, 62, ?_⟩
  · intro r c
    simp [wrapped, at200, State.setReg, State.setI, State.storeAtPc, State.storeBytes, State.reset, State.resetWith, Screen.clear, Screen.cell]
  · unfold spriteCovers
    decide

theorem test_witness_KeySkipsTestTheNamedKey :
    (((State.reset.setReg 0 15).setKey 15 true).reg 0).toNat = (15 : Key).val ∧
    ((State.reset.setReg 0 15).setKey 15 true).keyIsDown 15 = true ∧
    (State.reset.setReg 0 15).keyIsDown 15 = false ∧ ((State.reset.setReg 0 16).reg 0).toNat > 15 := by decide

theorem test_witness_WaitTakesTheLowestKeyDown :
    ((State.reset.setKey 15 true).keyIsDown 15 = true ∧ ∀ j : Key, j < 15 → (State.reset.setKey 15 true).keyIsDown j = false) ∧
    (∀ k : Key, State.reset.keyIsDown k = false) := by decide

theorem test_witness_TickCountsBothTimersDown : State.reset.running ∧ ¬ halted.running := by decide

theorem test_witness_KeyEventsSetOneFlag : State.reset.running ∧ (14 : Key) ≠ 15 := by decide

theorem test_witness_LoadCopiesTheImage :
    State.reset.memWf = true ∧ State.reset.running ∧ (List.replicate 3584 0x12#8).length ≤ 3584 ∧
    (List.replicate 3585 0x12#8).length > 3584 :=
  ⟨by decide, by decide, List.length_replicate.le, List.length_replicate.ge⟩

theorem test_witness_RndMasksAFreeByte : (0x00#8 : Byte) = 0#8 := by decide

end Sys2Proof.Tests
end

section
/-! PROOFS. Control flow (40_control_flow.md): the return and the two skips on an immediate. First the frames of the
operations they share, what the stack's entries are after a pop, and what the decoder reads from the two skips' words. -/

namespace Sys2Proof.Machine

/-! ### Frames -/

theorem samePart.trans {s t u : State} {p : Part} (hst : samePart s t p) (htu : samePart t u p) : samePart s u p := by
  cases p
  case memory => exact fun a => (htu a).trans (hst a)
  case registers => exact fun k => (htu k).trans (hst k)
  all_goals exact Eq.trans htu hst

theorem OnlyChanges.mono {ps qs : List Part} {s t : State} (h : OnlyChanges ps s t) (hsub : ps ⊆ qs) :
    OnlyChanges qs s t := fun p hp => h p fun hmem => hp (hsub hmem)

/-- The frame of two updates one after the other. -/
theorem OnlyChanges.trans {ps qs : List Part} {s t u : State} (hst : OnlyChanges ps s t) (htu : OnlyChanges qs t u) :
    OnlyChanges (ps ++ qs) s u := fun p hp =>
  (hst p fun hmem => hp (List.mem_append_left _ hmem)).trans (htu p fun hmem => hp (List.mem_append_right _ hmem))

theorem onlyChanges_jump (s : State) (w : Word) : OnlyChanges [.counter] s (s.jump w) := by
  intro p hp
  cases p
  case counter => exact absurd (List.mem_singleton_self _) hp
  all_goals simp [samePart]

theorem onlyChanges_advance (s : State) : OnlyChanges [.counter] s s.advance := onlyChanges_jump s _

theorem onlyChanges_skipIf (s : State) (c : Bool) : OnlyChanges [.counter] s (s.skipIf c) := onlyChanges_jump s _

theorem onlyChanges_setStack (s : State) (entries : List Word) : OnlyChanges [.callStack] s (s.setStack entries) := by
  intro p hp
  cases p
  case callStack => exact absurd (List.mem_singleton_self _) hp
  all_goals simp [samePart]

/-! ### The return -/

theorem exec_ret (s : State) : exec .ret s = .next s.popAndAdvance := rfl

/-- `STACK[SP - 1]` is the newest entry (R18). -/
theorem State.stackEntry_newest {s : State} {top : Word} {older : List Word} (h : s.stack = top :: older) :
    s.stackEntry (s.sp - 1) = some top := by
  simp [State.stackEntry, State.sp, h]

/-- A pop keeps every entry below the newest one at its index (R18). -/
theorem State.stackEntry_older {s : State} {top : Word} {older : List Word} (h : s.stack = top :: older) {j : Nat}
    (hj : j < older.length) : s.stackEntry j = older.reverse[j]? := by
  rw [State.stackEntry, h, List.reverse_cons, List.getElem?_append_left (by rwa [List.length_reverse])]

/-- The return changes the stack and `pc` only (R101). -/
theorem onlyChanges_popAndAdvance (s : State) : OnlyChanges [.callStack, .counter] s s.popAndAdvance := by
  obtain ⟨-, h⟩ | ⟨top, older, -, h⟩ := s.popAndAdvance_cases
  · rw [h]
    exact (onlyChanges_advance s).mono (List.subset_cons_self _ _)
  · rw [h]
    exact (onlyChanges_setStack s older).trans (onlyChanges_jump _ _)

/-- The pop of an empty stack is a no-op and `pc` still advances (R101). -/
theorem State.popAndAdvance_of_sp_eq_zero {s : State} (h : s.sp = 0) : s.popAndAdvance = s.advance := by
  obtain ⟨-, he⟩ | ⟨top, older, hs, -⟩ := s.popAndAdvance_cases
  · exact he
  · simp [State.sp, hs] at h

/-- With `SP > 0` the newest entry leaves the stack and `pc` is that entry plus 2 (R101). -/
theorem State.popAndAdvance_of_sp_pos {s : State} (h : s.sp > 0) :
    ∃ top older, s.stack = top :: older ∧ s.popAndAdvance = (s.setStack older).jump (top + 2#16) := by
  obtain ⟨hs, -⟩ | hpop := s.popAndAdvance_cases
  · simp [State.sp, hs] at h
  · exact hpop

/-- Settles O28: the return is `popAndAdvance`, by the two cases of the stack. -/
theorem retPopsThenAdvances : Obligations.RetPopsThenAdvances := by
  refine ⟨rfl, fun s => ⟨s.popAndAdvance, exec_ret s, onlyChanges_popAndAdvance s, fun hsp => ?_, fun hsp => ?_⟩⟩
  · rw [State.popAndAdvance_of_sp_eq_zero hsp]
    exact ⟨hsp, s.advance_pc⟩
  · obtain ⟨top, older, hs, hpop⟩ := State.popAndAdvance_of_sp_pos hsp
    rw [hpop]
    refine ⟨by simp [State.sp, hs], ⟨top, State.stackEntry_newest hs, rfl⟩, fun j hj => ?_⟩
    exact (State.stackEntry_older hs hj).symm

/-! ### The skips on an immediate -/

theorem decodeWord_seImm (x : Reg) (nn : Byte) : decodeWord (packRegByte 0x3#4 x nn) = some (.seImm x nn) := by
  simp [decodeWord]

theorem decodeWord_sneImm (x : Reg) (nn : Byte) : decodeWord (packRegByte 0x4#4 x nn) = some (.sneImm x nn) := by
  simp [decodeWord]

theorem exec_seImm (x : Reg) (nn : Byte) (s : State) :
    exec (.seImm x nn) s = .next (s.skipIf (decide (s.reg x = nn))) := rfl

theorem exec_sneImm (x : Reg) (nn : Byte) (s : State) :
    exec (.sneImm x nn) s = .next (s.skipIf (decide (s.reg x ≠ nn))) := rfl

/-- Settles O33: both words are conditional skips, on a comparison and on its negation. -/
theorem skipsOnAnImmediate : Obligations.SkipsOnAnImmediate := by
  intro x nn
  refine ⟨decodeWord_seImm x nn, decodeWord_sneImm x nn, fun s => ?_⟩
  refine ⟨_, _, exec_seImm x nn s, exec_sneImm x nn s, onlyChanges_skipIf s _, onlyChanges_skipIf s _, ?_, ?_⟩
  · intro heq
    simp [heq]
  · intro hne
    simp [hne]

end Sys2Proof.Machine
end

section
/-! PROOFS. Loads, arithmetic and logic that write `V[x]` alone (41_alu.md R120 to R125): one register write and the
advance, so one frame serves all six instructions; each adds what it computes. -/

namespace Sys2Proof.Machine

/-! ### The frame of a register write and the advance -/

theorem onlyChanges_setReg (s : State) (x : Reg) (b : Byte) : OnlyChanges [.registers] s (s.setReg x b) := by
  intro p hp
  cases p
  case registers => exact absurd (List.mem_singleton_self _) hp
  all_goals simp [samePart]

theorem onlyChanges_putReg (s : State) (x : Reg) (b : Byte) : OnlyChanges [.registers, .counter] s (s.putReg x b) :=
  (onlyChanges_setReg s x b).trans (onlyChanges_advance _)

@[simp] theorem State.reg_putReg_same (s : State) (x : Reg) (b : Byte) : (s.putReg x b).reg x = b :=
  s.reg_setReg_same x b

theorem otherRegs_putReg (s : State) (x : Reg) (b : Byte) : OtherRegs [x] s (s.putReg x b) := fun _ hk =>
  s.reg_setReg_of_ne b (List.ne_of_not_mem_cons hk)

/-! ### The immediates -/

theorem decodeWord_ldImm (x : Reg) (nn : Byte) : decodeWord (packRegByte 0x6#4 x nn) = some (.ldImm x nn) := by
  simp [decodeWord]

theorem decodeWord_addImm (x : Reg) (nn : Byte) : decodeWord (packRegByte 0x7#4 x nn) = some (.addImm x nn) := by
  simp [decodeWord]

theorem exec_ldImm (x : Reg) (nn : Byte) (s : State) : exec (.ldImm x nn) s = .next (s.putReg x nn) := rfl

theorem exec_addImm (x : Reg) (nn : Byte) (s : State) : exec (.addImm x nn) s = .next (s.putReg x (s.reg x + nn)) := rfl

/-- Settles O35: both words write `V[x]` and advance; the byte sum is the sum modulo 256. -/
theorem loadsAndAddsAnImmediate : Obligations.LoadsAndAddsAnImmediate := by
  intro x nn
  refine ⟨decodeWord_ldImm x nn, decodeWord_addImm x nn, fun s => ?_⟩
  refine ⟨_, _, exec_ldImm x nn s, exec_addImm x nn s, s.reg_putReg_same x nn, ?sum, otherRegs_putReg s x _,
    otherRegs_putReg s x _, s.putReg_pc x _, s.putReg_pc x _, onlyChanges_putReg s x _, onlyChanges_putReg s x _⟩
  case sum => rw [State.reg_putReg_same, BitVec.toNat_add]

/-! ### The copy and the logic operations -/

/-- With `hi4 = 8` the low digit alone chooses the instruction (R63). -/
theorem decodeWord_packRegReg_8 (x y : Reg) (n : Nibble) :
    decodeWord (packRegReg 0x8#4 x y n) = decodeGroup8 (packRegReg 0x8#4 x y n) := by
  simp [decodeWord]

theorem decodeWord_ldReg (x y : Reg) : decodeWord (packRegReg 0x8#4 x y 0x0#4) = some (.ldReg x y) := by
  simp [decodeWord_packRegReg_8, decodeGroup8]

theorem decodeWord_orReg (x y : Reg) : decodeWord (packRegReg 0x8#4 x y 0x1#4) = some (.orReg x y) := by
  simp [decodeWord_packRegReg_8, decodeGroup8]

theorem decodeWord_andReg (x y : Reg) : decodeWord (packRegReg 0x8#4 x y 0x2#4) = some (.andReg x y) := by
  simp [decodeWord_packRegReg_8, decodeGroup8]

theorem decodeWord_xorReg (x y : Reg) : decodeWord (packRegReg 0x8#4 x y 0x3#4) = some (.xorReg x y) := by
  simp [decodeWord_packRegReg_8, decodeGroup8]

theorem exec_ldReg (x y : Reg) (s : State) : exec (.ldReg x y) s = .next (s.putReg x (s.reg y)) := rfl

theorem exec_orReg (x y : Reg) (s : State) : exec (.orReg x y) s = .next (s.putReg x (s.reg x ||| s.reg y)) := rfl

theorem exec_andReg (x y : Reg) (s : State) : exec (.andReg x y) s = .next (s.putReg x (s.reg x &&& s.reg y)) := rfl

theorem exec_xorReg (x y : Reg) (s : State) : exec (.xorReg x y) s = .next (s.putReg x (s.reg x ^^^ s.reg y)) := rfl

/-- Settles O36: the four words write `V[x]` and advance; a logic result is that operation on each pair of bits. -/
theorem copiesAndCombinesRegisters : Obligations.CopiesAndCombinesRegisters := by
  intro x y
  refine ⟨decodeWord_ldReg x y, decodeWord_orReg x y, decodeWord_andReg x y, decodeWord_xorReg x y, fun s => ?_⟩
  refine ⟨_, _, _, _, exec_ldReg x y s, exec_orReg x y s, exec_andReg x y s, exec_xorReg x y s,
    s.reg_putReg_same x _, fun j => ?or, fun j => ?and, fun j => ?xor, ?frame⟩
  case or => rw [State.reg_putReg_same, BitVec.getLsbD_or]
  case and => rw [State.reg_putReg_same, BitVec.getLsbD_and]
  case xor => rw [State.reg_putReg_same, BitVec.getLsbD_xor]
  case frame => simp [otherRegs_putReg, onlyChanges_putReg]

end Sys2Proof.Machine
end

section
/-! PROOFS. Loads of the address register (42_index_memory.md R140, R142): one write of `I` and the advance, so one frame
serves both instructions; each adds the value it loads. -/

namespace Sys2Proof.Machine

/-! ### The frame of a write of `I` and the advance -/

theorem onlyChanges_setI (s : State) (w : Word) : OnlyChanges [.index] s (s.setI w) := by
  intro p hp
  cases p
  case index => exact absurd (List.mem_singleton_self _) hp
  all_goals simp [samePart]

theorem onlyChanges_setI_advance (s : State) (w : Word) : OnlyChanges [.index, .counter] s (s.setI w).advance :=
  (onlyChanges_setI s w).trans (onlyChanges_advance _)

/-! ### The two loads -/

theorem decodeWord_ldI (nnn : Addr12) : decodeWord (packAddr 0xA#4 nnn) = some (.ldI nnn) := by
  simp [decodeWord]

/-- With `hi4 = F` the low byte alone chooses the instruction (R63). -/
theorem decodeWord_packRegByte_F (x : Reg) (nn : Byte) :
    decodeWord (packRegByte 0xF#4 x nn) = decodeGroupF (packRegByte 0xF#4 x nn) := by
  simp [decodeWord]

theorem decodeWord_ldF (x : Reg) : decodeWord (packRegByte 0xF#4 x 0x29#8) = some (.ldF x) := by
  simp [decodeWord_packRegByte_F, decodeGroupF]

theorem exec_ldI (nnn : Addr12) (s : State) : exec (.ldI nnn) s = .next (s.setI (addressOf nnn)).advance := rfl

theorem exec_ldF (x : Reg) (s : State) : exec (.ldF x) s = .next (s.setI (glyphAddress (s.reg x))).advance := rfl

/-- Settles O43: both words write `I` and advance; zero extension keeps the address, and five times a byte fits 16 bits. -/
theorem loadsTheAddressRegister : Obligations.LoadsTheAddressRegister := by
  refine ⟨fun nnn => ⟨decodeWord_ldI nnn, fun s => ?ldI⟩, fun x => ⟨decodeWord_ldF x, fun s => ?ldF⟩⟩
  case ldI => exact ⟨_, exec_ldI nnn s, toNat_addressOf nnn, State.advance_pc _, onlyChanges_setI_advance s _⟩
  case ldF => exact ⟨_, exec_ldF x s, toNat_glyphAddress (s.reg x), State.advance_pc _, onlyChanges_setI_advance s _⟩

end Sys2Proof.Machine
end

section
/-! PROOFS. The clear of the display (43_display.md R150): one write of the whole display and the advance. -/

namespace Sys2Proof.Machine

/-! ### The frame of a write of the display and the advance -/

theorem onlyChanges_setScreen (s : State) (fb : Screen) : OnlyChanges [.display] s (s.setScreen fb) := by
  intro p hp
  cases p
  case display => exact absurd (List.mem_singleton_self _) hp
  all_goals simp [samePart]

theorem onlyChanges_setScreen_advance (s : State) (fb : Screen) :
    OnlyChanges [.display, .counter] s (s.setScreen fb).advance :=
  (onlyChanges_setScreen s fb).trans (onlyChanges_advance _)

/-! ### The clear -/

theorem decodeWord_cls : decodeWord 0x00E0#16 = some .cls := by decide

theorem exec_cls (s : State) : exec .cls s = .next (s.setScreen Screen.clear).advance := rfl

/-- Settles O48: the clear writes the cleared display and advances. -/
theorem clsClearsEveryCell : Obligations.ClsClearsEveryCell := by
  refine ⟨decodeWord_cls, fun s => ⟨_, exec_cls s, fun r c => ?cell, State.advance_pc _, onlyChanges_setScreen_advance s _⟩⟩
  case cell => rw [State.advance_fb, State.setScreen_fb, Screen.cell_clear]

end Sys2Proof.Machine
end

section
/-! PROOFS. The timers (44_timers_input.md R160 to R162): one write of a timer and the advance, a frame per timer; the
read of `DT` is the register write of `State.putReg`. -/

namespace Sys2Proof.Machine

/-! ### The frames of a write of a timer and the advance -/

theorem onlyChanges_setDt (s : State) (b : Byte) : OnlyChanges [.delayTimer] s (s.setDt b) := by
  intro p hp
  cases p
  case delayTimer => exact absurd (List.mem_singleton_self _) hp
  all_goals simp [samePart]

theorem onlyChanges_setSt (s : State) (b : Byte) : OnlyChanges [.soundTimer] s (s.setSt b) := by
  intro p hp
  cases p
  case soundTimer => exact absurd (List.mem_singleton_self _) hp
  all_goals simp [samePart]

theorem onlyChanges_setDt_advance (s : State) (b : Byte) : OnlyChanges [.delayTimer, .counter] s (s.setDt b).advance :=
  (onlyChanges_setDt s b).trans (onlyChanges_advance _)

theorem onlyChanges_setSt_advance (s : State) (b : Byte) : OnlyChanges [.soundTimer, .counter] s (s.setSt b).advance :=
  (onlyChanges_setSt s b).trans (onlyChanges_advance _)

/-! ### The read and the two writes -/

theorem decodeWord_ldVxDt (x : Reg) : decodeWord (packRegByte 0xF#4 x 0x07#8) = some (.ldVxDt x) := by
  simp [decodeWord_packRegByte_F, decodeGroupF]

theorem decodeWord_ldDtVx (x : Reg) : decodeWord (packRegByte 0xF#4 x 0x15#8) = some (.ldDtVx x) := by
  simp [decodeWord_packRegByte_F, decodeGroupF]

theorem decodeWord_ldStVx (x : Reg) : decodeWord (packRegByte 0xF#4 x 0x18#8) = some (.ldStVx x) := by
  simp [decodeWord_packRegByte_F, decodeGroupF]

theorem exec_ldVxDt (x : Reg) (s : State) : exec (.ldVxDt x) s = .next (s.putReg x s.dt) := rfl

theorem exec_ldDtVx (x : Reg) (s : State) : exec (.ldDtVx x) s = .next (s.setDt (s.reg x)).advance := rfl

theorem exec_ldStVx (x : Reg) (s : State) : exec (.ldStVx x) s = .next (s.setSt (s.reg x)).advance := rfl

/-- Settles O52: the read writes `V[x]`, each of the others its timer, and all three advance. -/
theorem timersAreReadAndSet : Obligations.TimersAreReadAndSet := by
  intro x
  refine ⟨decodeWord_ldVxDt x, decodeWord_ldDtVx x, decodeWord_ldStVx x, fun s => ?_⟩
  refine ⟨_, _, _, exec_ldVxDt x s, exec_ldDtVx x s, exec_ldStVx x s,
    s.reg_putReg_same x _, otherRegs_putReg s x _, s.putReg_pc x _, onlyChanges_putReg s x _,
    ?dt, State.advance_pc _, onlyChanges_setDt_advance s _,
    ?st, State.advance_pc _, onlyChanges_setSt_advance s _⟩
  case dt => rw [State.advance_dt, State.setDt_dt]
  case st => rw [State.advance_st, State.setSt_st]

end Sys2Proof.Machine
end

section
/-! PROOFS. The encoding (30_encoding.md): decoding undoes encoding by the fields of a packed word; encoding undoes decoding
because the fields of a word, packed again, are the word; and a mask of the opcode map fixes the digits it selects. -/

namespace Sys2Proof

open Machine Laws

/-! ### Decoding what was encoded -/

/-- The decoder reads back every instruction from its word (R61, R63). -/
@[simp] theorem decodeWord_encode (i : Instr) : decodeWord (encode i) = some i := by
  cases i
  case cls | ret => rfl
  all_goals simp [encode, decodeWord, decodeIfLowZero, decodeGroup8, decodeGroupE, decodeGroupF]

/-- Settles O1: the two bytes of a word make the word again, and the decoder reads the instruction back from it. -/
theorem decodeOfEncodeGivesTheInstruction : Obligations.DecodeOfEncodeGivesTheInstruction := by
  intro i rest
  simp [encodeBytes, decode]

/-! ### A word is its packed fields (R6, R61) -/

theorem packAddr_fields (op : Word) : packAddr (fieldHi4 op) (fieldNNN op) = op := by
  rw [packAddr, fieldHi4, fieldNNN, BitVec.extractLsb'_append_extractLsb'_eq_extractLsb' (by rfl)]
  exact BitVec.extractLsb'_eq_self

theorem packRegByte_fields (op : Word) : packRegByte (fieldHi4 op) (fieldX op) (fieldNN op) = op := by
  rw [packRegByte, fieldHi4, fieldX, fieldNN, nibbleOfReg_regOfNibble,
    BitVec.extractLsb'_append_extractLsb'_eq_extractLsb' (by rfl), BitVec.extractLsb'_append_extractLsb'_eq_extractLsb' (by rfl)]
  exact BitVec.extractLsb'_eq_self

theorem packRegReg_fields (op : Word) : packRegReg (fieldHi4 op) (fieldX op) (fieldY op) (fieldN op) = op := by
  rw [packRegReg, fieldHi4, fieldX, fieldY, fieldN, nibbleOfReg_regOfNibble, nibbleOfReg_regOfNibble,
    BitVec.extractLsb'_append_extractLsb'_eq_extractLsb' (by rfl), BitVec.extractLsb'_append_extractLsb'_eq_extractLsb' (by rfl),
    BitVec.extractLsb'_append_extractLsb'_eq_extractLsb' (by rfl)]
  exact BitVec.extractLsb'_eq_self

theorem packAddr_of_hi4 {op : Word} {h : Nibble} (hh : fieldHi4 op = h) : packAddr h (fieldNNN op) = op :=
  hh ▸ packAddr_fields op

theorem packRegByte_of_hi4 {op : Word} {h : Nibble} (hh : fieldHi4 op = h) :
    packRegByte h (fieldX op) (fieldNN op) = op := hh ▸ packRegByte_fields op

theorem packRegByte_of_hi4_nn {op : Word} {h : Nibble} {b : Byte} (hh : fieldHi4 op = h) (hb : fieldNN op = b) :
    packRegByte h (fieldX op) b = op := hb ▸ packRegByte_of_hi4 hh

theorem packRegReg_of_hi4_n {op : Word} {h n : Nibble} (hh : fieldHi4 op = h) (hn : fieldN op = n) :
    packRegReg h (fieldX op) (fieldY op) n = op := hh ▸ hn ▸ packRegReg_fields op

/-! ### Encoding what was decoded -/

theorem encode_of_decodeGroup0 {op : Word} {i : Instr} (hh : fieldHi4 op = 0x0#4) (h : decodeGroup0 op = some i) :
    encode i = op := by
  rw [decodeGroup0] at h
  split at h <;> cases h
  all_goals next hn => rw [← packAddr_of_hi4 hh, hn]; rfl

theorem encode_of_decodeGroup8 {op : Word} {i : Instr} (hh : fieldHi4 op = 0x8#4) (h : decodeGroup8 op = some i) :
    encode i = op := by
  simp only [decodeGroup8] at h
  split at h <;> cases h
  all_goals next hn => exact packRegReg_of_hi4_n hh hn

theorem encode_of_decodeGroupE {op : Word} {i : Instr} (hh : fieldHi4 op = 0xE#4) (h : decodeGroupE op = some i) :
    encode i = op := by
  rw [decodeGroupE] at h
  split at h <;> cases h
  all_goals next hn => exact packRegByte_of_hi4_nn hh hn

theorem encode_of_decodeGroupF {op : Word} {i : Instr} (hh : fieldHi4 op = 0xF#4) (h : decodeGroupF op = some i) :
    encode i = op := by
  simp only [decodeGroupF] at h
  split at h <;> cases h
  all_goals next hn => exact packRegByte_of_hi4_nn hh hn

theorem decodeIfLowZero_eq_some {op : Word} {i j : Instr} :
    decodeIfLowZero op j = some i ↔ fieldN op = 0x0#4 ∧ j = i := by
  simp [decodeIfLowZero]

/-- Settles O2: each digit of the first-level dispatch has one format, and the fields of a format make up the word. -/
theorem encodeOfDecodeGivesTheWord : Obligations.EncodeOfDecodeGivesTheWord := by
  intro op i h
  rw [decodeWord] at h
  split at h <;> rename_i hh
  case h_1 => exact encode_of_decodeGroup0 hh h
  case h_6 | h_10 =>
    obtain ⟨hn, rfl⟩ := decodeIfLowZero_eq_some.mp h
    exact packRegReg_of_hi4_n hh hn
  case h_9 => exact encode_of_decodeGroup8 hh h
  case h_15 => exact encode_of_decodeGroupE hh h
  case h_16 => exact encode_of_decodeGroupF hh h
  case h_17 => cases h
  case h_2 | h_3 | h_11 | h_12 => cases h; exact packAddr_of_hi4 hh
  case h_14 => cases h; exact packRegReg_of_hi4_n hh rfl
  all_goals cases h; exact packRegByte_of_hi4 hh

/-! ### The opcode map (R63) -/

theorem packAddr_of_and_F000 {op : Word} {h : Nibble} (hs : op &&& 0xF000#16 = packAddr h 0) :
    packAddr h (fieldNNN op) = op := by
  rw [← packAddr_fields op, packAddr_and_F000] at hs
  exact packAddr_of_hi4 (by simpa using congrArg fieldHi4 hs)

theorem packRegByte_of_and_F000 {op : Word} {h : Nibble} (hs : op &&& 0xF000#16 = packRegByte h 0 0) :
    packRegByte h (fieldX op) (fieldNN op) = op := by
  rw [← packRegByte_fields op, packRegByte_and_F000] at hs
  exact packRegByte_of_hi4 (by simpa using congrArg fieldHi4 hs)

theorem packRegReg_of_and_F000 {op : Word} {h : Nibble} (hs : op &&& 0xF000#16 = packRegReg h 0 0 0) :
    packRegReg h (fieldX op) (fieldY op) (fieldN op) = op := by
  rw [← packRegReg_fields op, packRegReg_and_F000] at hs
  exact packRegReg_of_hi4_n (by simpa using congrArg fieldHi4 hs) rfl

theorem packRegByte_of_and_F0FF {op : Word} {h : Nibble} {b : Byte} (hs : op &&& 0xF0FF#16 = packRegByte h 0 b) :
    packRegByte h (fieldX op) b = op := by
  rw [← packRegByte_fields op, packRegByte_and_F0FF] at hs
  exact packRegByte_of_hi4_nn (by simpa using congrArg fieldHi4 hs) (by simpa using congrArg fieldNN hs)

theorem packRegReg_of_and_F00F {op : Word} {h n : Nibble} (hs : op &&& 0xF00F#16 = packRegReg h 0 0 n) :
    packRegReg h (fieldX op) (fieldY op) n = op := by
  rw [← packRegReg_fields op, packRegReg_and_F00F] at hs
  exact packRegReg_of_hi4_n (by simpa using congrArg fieldHi4 hs) (by simpa using congrArg fieldN hs)

theorem and_FFFF (op : Word) : op &&& 0xFFFF#16 = op := BitVec.and_allOnes

/-- A word that the row of some instruction selects is the word of an instruction of that row: the row's own digits with
the operands the word holds. -/
theorem exists_encode_of_rowOf (i₀ : Instr) {op : Word} (h : op &&& (rowOf i₀).mask = (rowOf i₀).pattern) :
    ∃ i, rowOf i = rowOf i₀ ∧ encode i = op := by
  cases i₀ with
  | cls => exact ⟨.cls, rfl, h.symm.trans (and_FFFF op)⟩
  | ret => exact ⟨.ret, rfl, h.symm.trans (and_FFFF op)⟩
  | jp => exact ⟨.jp (fieldNNN op), rfl, packAddr_of_and_F000 h⟩
  | call => exact ⟨.call (fieldNNN op), rfl, packAddr_of_and_F000 h⟩
  | seImm => exact ⟨.seImm (fieldX op) (fieldNN op), rfl, packRegByte_of_and_F000 h⟩
  | sneImm => exact ⟨.sneImm (fieldX op) (fieldNN op), rfl, packRegByte_of_and_F000 h⟩
  | seReg => exact ⟨.seReg (fieldX op) (fieldY op), rfl, packRegReg_of_and_F00F h⟩
  | ldImm => exact ⟨.ldImm (fieldX op) (fieldNN op), rfl, packRegByte_of_and_F000 h⟩
  | addImm => exact ⟨.addImm (fieldX op) (fieldNN op), rfl, packRegByte_of_and_F000 h⟩
  | ldReg => exact ⟨.ldReg (fieldX op) (fieldY op), rfl, packRegReg_of_and_F00F h⟩
  | orReg => exact ⟨.orReg (fieldX op) (fieldY op), rfl, packRegReg_of_and_F00F h⟩
  | andReg => exact ⟨.andReg (fieldX op) (fieldY op), rfl, packRegReg_of_and_F00F h⟩
  | xorReg => exact ⟨.xorReg (fieldX op) (fieldY op), rfl, packRegReg_of_and_F00F h⟩
  | addReg => exact ⟨.addReg (fieldX op) (fieldY op), rfl, packRegReg_of_and_F00F h⟩
  | sub => exact ⟨.sub (fieldX op) (fieldY op), rfl, packRegReg_of_and_F00F h⟩
  | shr => exact ⟨.shr (fieldX op) (fieldY op), rfl, packRegReg_of_and_F00F h⟩
  | suby => exact ⟨.suby (fieldX op) (fieldY op), rfl, packRegReg_of_and_F00F h⟩
  | shl => exact ⟨.shl (fieldX op) (fieldY op), rfl, packRegReg_of_and_F00F h⟩
  | sneReg => exact ⟨.sneReg (fieldX op) (fieldY op), rfl, packRegReg_of_and_F00F h⟩
  | ldI => exact ⟨.ldI (fieldNNN op), rfl, packAddr_of_and_F000 h⟩
  | jpV0 => exact ⟨.jpV0 (fieldNNN op), rfl, packAddr_of_and_F000 h⟩
  | rnd => exact ⟨.rnd (fieldX op) (fieldNN op), rfl, packRegByte_of_and_F000 h⟩
  | drw => exact ⟨.drw (fieldX op) (fieldY op) (fieldN op), rfl, packRegReg_of_and_F000 h⟩
  | skp => exact ⟨.skp (fieldX op), rfl, packRegByte_of_and_F0FF h⟩
  | sknp => exact ⟨.sknp (fieldX op), rfl, packRegByte_of_and_F0FF h⟩
  | ldVxDt => exact ⟨.ldVxDt (fieldX op), rfl, packRegByte_of_and_F0FF h⟩
  | ldVxK => exact ⟨.ldVxK (fieldX op), rfl, packRegByte_of_and_F0FF h⟩
  | ldDtVx => exact ⟨.ldDtVx (fieldX op), rfl, packRegByte_of_and_F0FF h⟩
  | ldStVx => exact ⟨.ldStVx (fieldX op), rfl, packRegByte_of_and_F0FF h⟩
  | addI => exact ⟨.addI (fieldX op), rfl, packRegByte_of_and_F0FF h⟩
  | ldF => exact ⟨.ldF (fieldX op), rfl, packRegByte_of_and_F0FF h⟩
  | ldB => exact ⟨.ldB (fieldX op), rfl, packRegByte_of_and_F0FF h⟩
  | ldMemVx => exact ⟨.ldMemVx (fieldX op), rfl, packRegByte_of_and_F0FF h⟩
  | ldVxMem => exact ⟨.ldVxMem (fieldX op), rfl, packRegByte_of_and_F0FF h⟩

/-- The encoding of every instruction is selected by its own row: the per-instruction facts, for all of them. -/
theorem encode_and_mask : ∀ i : Instr, encode i &&& (rowOf i).mask = (rowOf i).pattern
  | .cls => EncodingSelectsRow.cls
  | .ret => EncodingSelectsRow.ret
  | .jp nnn => EncodingSelectsRow.jp nnn
  | .call nnn => EncodingSelectsRow.call nnn
  | .seImm x nn => EncodingSelectsRow.seImm x nn
  | .sneImm x nn => EncodingSelectsRow.sneImm x nn
  | .seReg x y => EncodingSelectsRow.seReg x y
  | .ldImm x nn => EncodingSelectsRow.ldImm x nn
  | .addImm x nn => EncodingSelectsRow.addImm x nn
  | .ldReg x y => EncodingSelectsRow.ldReg x y
  | .orReg x y => EncodingSelectsRow.orReg x y
  | .andReg x y => EncodingSelectsRow.andReg x y
  | .xorReg x y => EncodingSelectsRow.xorReg x y
  | .addReg x y => EncodingSelectsRow.addReg x y
  | .sub x y => EncodingSelectsRow.sub x y
  | .shr x y => EncodingSelectsRow.shr x y
  | .suby x y => EncodingSelectsRow.suby x y
  | .shl x y => EncodingSelectsRow.shl x y
  | .sneReg x y => EncodingSelectsRow.sneReg x y
  | .ldI nnn => EncodingSelectsRow.ldI nnn
  | .jpV0 nnn => EncodingSelectsRow.jpV0 nnn
  | .rnd x nn => EncodingSelectsRow.rnd x nn
  | .drw x y n => EncodingSelectsRow.drw x y n
  | .skp x => EncodingSelectsRow.skp x
  | .sknp x => EncodingSelectsRow.sknp x
  | .ldVxDt x => EncodingSelectsRow.ldVxDt x
  | .ldVxK x => EncodingSelectsRow.ldVxK x
  | .ldDtVx x => EncodingSelectsRow.ldDtVx x
  | .ldStVx x => EncodingSelectsRow.ldStVx x
  | .addI x => EncodingSelectsRow.addI x
  | .ldF x => EncodingSelectsRow.ldF x
  | .ldB x => EncodingSelectsRow.ldB x
  | .ldMemVx x => EncodingSelectsRow.ldMemVx x
  | .ldVxMem x => EncodingSelectsRow.ldVxMem x

theorem rowSelects_eq_true {r : OpcodeRow} {op : Word} : rowSelects r op = true ↔ op &&& r.mask = r.pattern :=
  decide_eq_true_iff

/-- Every instruction is an instance of a row of the map (R63). -/
theorem rowOf_mem_opcodeMap (i : Instr) : rowOf i ∈ opcodeMap := by
  cases i <;> simp [rowOf, opcodeMap, rowInstances, rowInstancesPlain, rowInstancesAlu, rowInstancesMiddle, rowInstancesF]

/-- A row of the map selects a word exactly when the word decodes to an instruction of that row. -/
theorem rowSelects_iff {r : OpcodeRow} (hr : r ∈ opcodeMap) {op : Word} :
    rowSelects r op = true ↔ ∃ i, decodeWord op = some i ∧ rowOf i = r := by
  rw [rowSelects_eq_true]
  constructor
  · intro h
    obtain ⟨i₀, -, rfl⟩ := List.mem_map.mp hr
    obtain ⟨i, hrow, rfl⟩ := exists_encode_of_rowOf i₀ h
    exact ⟨i, decodeWord_encode i, hrow⟩
  · rintro ⟨i, hd, rfl⟩
    rw [← encodeOfDecodeGivesTheWord op i hd]
    exact encode_and_mask i

/-- Settles O3: a row selects the words of its own instructions and no other, and a word has one instruction. -/
theorem decoderAgreesWithTheOpcodeMap : Obligations.DecoderAgreesWithTheOpcodeMap := by
  refine ⟨rfl, fun op i hd => ?own, fun op r hr h => (rowSelects_iff hr).mp h, fun op r r' hr hr' h h' => ?one⟩
  case own => exact ⟨rowOf_mem_opcodeMap i, (rowSelects_iff (rowOf_mem_opcodeMap i)).mpr ⟨i, hd, rfl⟩⟩
  case one =>
    obtain ⟨i, hd, rfl⟩ := (rowSelects_iff hr).mp h
    obtain ⟨i', hd', rfl⟩ := (rowSelects_iff hr').mp h'
    rw [Option.some.inj (hd.symm.trans hd')]

end Sys2Proof
end

section
/-! PROOFS. The illegal words (30_encoding.md R65): the numbers the table names are the word's fields, and each group of the
decoder refuses what its line of the table lists. -/

namespace Sys2Proof

/-! ### The fields as numbers -/

theorem toNat_fieldHi4 (op : Word) : op.toNat / 0x1000 = (fieldHi4 op).toNat := by
  rw [fieldHi4, BitVec.extractLsb'_toNat, Nat.shiftRight_eq_div_pow]
  omega

theorem toNat_fieldNNN (op : Word) : op.toNat % 0x1000 = (fieldNNN op).toNat := by
  simp [fieldNNN, BitVec.extractLsb'_toNat]

theorem toNat_fieldNN (op : Word) : op.toNat % 0x100 = (fieldNN op).toNat := by
  simp [fieldNN, BitVec.extractLsb'_toNat]

theorem toNat_fieldN (op : Word) : op.toNat % 0x10 = (fieldN op).toNat := by
  simp [fieldN, BitVec.extractLsb'_toNat]

/-! ### What each group refuses -/

theorem decodeGroup0_eq_none {op : Word} : decodeGroup0 op = none ↔ (fieldNNN op).toNat ∉ [0x0E0, 0x0EE] := by
  rw [decodeGroup0]
  split <;> simp_all [BitVec.toNat_eq]

theorem decodeIfLowZero_eq_none {op : Word} {i : Instr} : decodeIfLowZero op i = none ↔ (fieldN op).toNat ≠ 0 := by
  simp [decodeIfLowZero, BitVec.toNat_eq]

theorem decodeGroup8_eq_none {op : Word} :
    decodeGroup8 op = none ↔ ¬ (fieldN op).toNat ∉ [0x8, 0x9, 0xA, 0xB, 0xC, 0xD, 0xF] := by
  simp only [decodeGroup8]
  split
  case h_10 =>
    have := (fieldN op).isLt
    simp_all [BitVec.toNat_eq]
    omega
  all_goals simp_all

theorem decodeGroupE_eq_none {op : Word} : decodeGroupE op = none ↔ (fieldNN op).toNat ∉ [0x9E, 0xA1] := by
  rw [decodeGroupE]
  split <;> simp_all [BitVec.toNat_eq]

theorem decodeGroupF_eq_none {op : Word} :
    decodeGroupF op = none ↔ (fieldNN op).toNat ∉ [0x07, 0x0A, 0x15, 0x18, 0x1E, 0x29, 0x33, 0x55, 0x65] := by
  simp only [decodeGroupF]
  split <;> simp_all [BitVec.toNat_eq]

/-- Settles O4: by the first digit; under it the decoder and the table refuse by the same low digits. -/
theorem refusedWordsAreTheIllegalOnes : Obligations.RefusedWordsAreTheIllegalOnes := by
  intro op
  simp only [legalWord, toNat_fieldHi4, toNat_fieldNNN, toNat_fieldNN, toNat_fieldN]
  rw [decodeWord]
  split <;> rename_i hh
  case h_17 =>
    exfalso
    have := (fieldHi4 op).isLt
    simp_all [BitVec.toNat_eq]
    omega
  all_goals simp only [hh]
  case h_1 => exact decodeGroup0_eq_none.trans decide_eq_false_iff_not.symm
  case h_6 | h_10 => exact decodeIfLowZero_eq_none.trans decide_eq_false_iff_not.symm
  case h_9 => exact decodeGroup8_eq_none.trans decide_eq_false_iff_not.symm
  case h_15 => exact decodeGroupE_eq_none.trans decide_eq_false_iff_not.symm
  case h_16 => exact decodeGroupF_eq_none.trans decide_eq_false_iff_not.symm
  all_goals simp

/-- Settles O5: each word's digits choose its row. -/
theorem sampleWordsDecodeAsWritten : Obligations.SampleWordsDecodeAsWritten := by
  unfold Obligations.SampleWordsDecodeAsWritten
  decide

end Sys2Proof
end

section
/-! PROOFS. What executing an instruction can do, said once (30_encoding.md R63, 60_exceptions.md R207): it faults, by
`State.faultOf`, or it completes: it writes what `State.effect` writes, which leaves `pc` and the parameters alone, and
then `pc`, by `State.target`. `exec_eq` ties the three to `exec`; the rules about all instructions go through it. -/

namespace Sys2Proof.Machine

/-! ### The parts of an instruction's meaning -/

/-- The bounds fault of an access, as the cause and the `HALT_INFO` of a fault entry (20_memory.md R43). -/
def accessFault (base count : Nat) : Option (HaltStatus × Word) :=
  (boundsFault base count).map fun info => (.memoryBoundsFault, info)

/-- The key index fault of a register (60_exceptions.md R204). -/
def keyFault (b : Byte) : Option (HaltStatus × Word) :=
  if b.toNat < 16 then none else some (.keyIndexFault, widen b)

/-- The execute-time fault of an instruction in a state, if it faults there (R207). -/
def State.faultOf (s : State) : Instr → Option (HaltStatus × Word)
  | .call _ => if s.sp = s.params.stackDepth then some (.stackOverflow, s.pc) else none
  | .drw _ _ n => accessFault s.indexAddress n.toNat
  | .ldB _ => accessFault s.indexAddress 3
  | .ldMemVx x | .ldVxMem x => accessFault s.indexAddress (regCount x)
  | .skp x | .sknp x => keyFault (s.reg x)
  | _ => none

/-- Whether the key that a register names is down; false where it names none (R163). -/
def State.namedKeyIsDown (s : State) (x : Reg) : Bool := (keyNamed (s.reg x)).any s.keyIsDown

/-- The sprite of `Dxyn` drawn on the display, with the collision it finds (R151). -/
def State.drawing (s : State) (x y : Reg) (n : Nibble) : Screen × Bool :=
  drawSprite s.fb (originCol (s.reg x)) (originRow (s.reg y)) (s.readBytes s.indexAddress n.toNat)

/-- What an instruction that completes writes, `pc` aside: the jumps and the skips nothing, and the wait with no key down
`V[x]` to itself. -/
def State.effect (s : State) : Instr → State
  | .cls => s.setScreen Screen.clear
  | .ret => s.setStack s.stack.tail
  | .call _ => s.push s.pc
  | .ldImm x nn => s.setReg x nn
  | .addImm x nn => s.setReg x (s.reg x + nn)
  | .ldReg x y => s.setReg x (s.reg y)
  | .orReg x y => s.setReg x (s.reg x ||| s.reg y)
  | .andReg x y => s.setReg x (s.reg x &&& s.reg y)
  | .xorReg x y => s.setReg x (s.reg x ^^^ s.reg y)
  | .addReg x y => (s.setReg x (s.reg x + s.reg y)).setFlag (carryOut (s.reg x) (s.reg y))
  | .sub x y => (s.setReg x (s.reg x - s.reg y)).setFlag (notBorrow (s.reg x) (s.reg y))
  | .shr x y => (s.setFlag (bitZero (s.reg x))).setReg x ((s.setFlag (bitZero (s.reg x))).reg y >>> 1)
  | .suby x y => (s.setReg y (s.reg y - s.reg x)).setFlag (notBorrow (s.reg y) (s.reg x))
  | .shl x _ => (s.setFlag (bitSeven (s.reg x))).setReg x ((s.setFlag (bitSeven (s.reg x))).reg x <<< 1)
  | .ldI nnn => s.setI (addressOf nnn)
  | .rnd x nn => s.drawn.setReg x (s.rndByte &&& nn)
  | .drw x y n => (s.setScreen (s.drawing x y n).1).setFlag (s.drawing x y n).2
  | .ldVxDt x => s.setReg x s.dt
  | .ldVxK x => s.setReg x (s.lowestKey.elim (s.reg x) fun k => BitVec.ofNat 8 k.val)
  | .ldDtVx x => s.setDt (s.reg x)
  | .ldStVx x => s.setSt (s.reg x)
  | .addI x => s.setI (s.i + widen (s.reg x))
  | .ldF x => s.setI (glyphAddress (s.reg x))
  | .ldB x => s.storeBytes s.indexAddress (bcdDigits (s.reg x))
  | .ldMemVx x => (s.storeBytes s.indexAddress (s.regsUpTo x)).bumpIndex x
  | .ldVxMem x => (s.loadRegs x s.indexAddress).bumpIndex x
  | _ => s

/-- `pc + 4` where a skip's condition holds, else `pc + 2`, before the cut to `PC_BITS` (R8). -/
def State.skipTarget (s : State) (c : Bool) : Word := if c then s.pc + 4#16 else s.pc + 2#16

/-- The value an instruction that completes writes to `pc`, before the cut to `PC_BITS`; none where it leaves `pc`: the
wait with no key down (R14, R164). -/
def State.target (s : State) : Instr → Option Word
  | .jp nnn | .call nnn => some (addressOf nnn)
  | .jpV0 nnn => some (offsetTarget nnn (s.reg V0))
  | .ret => some (s.stack.headD s.pc + 2#16)
  | .seImm x nn => some (s.skipTarget (decide (s.reg x = nn)))
  | .sneImm x nn => some (s.skipTarget (decide (s.reg x ≠ nn)))
  | .seReg x y => some (s.skipTarget (decide (s.reg x = s.reg y)))
  | .sneReg x y => some (s.skipTarget (decide (s.reg x ≠ s.reg y)))
  | .skp x => some (s.skipTarget (s.namedKeyIsDown x))
  | .sknp x => some (s.skipTarget (!s.namedKeyIsDown x))
  | .ldVxK _ => s.lowestKey.map fun _ => s.pc + 2#16
  | .cls | .ldImm _ _ | .addImm _ _ | .ldReg _ _ | .orReg _ _ | .andReg _ _ | .xorReg _ _ => some (s.pc + 2#16)
  | .addReg _ _ | .sub _ _ | .shr _ _ | .suby _ _ | .shl _ _ | .ldI _ | .rnd _ _ | .drw _ _ _ => some (s.pc + 2#16)
  | .ldVxDt _ | .ldDtVx _ | .ldStVx _ | .addI _ | .ldF _ | .ldB _ | .ldMemVx _ | .ldVxMem _ => some (s.pc + 2#16)

/-- `pc` takes the given value, if there is one. -/
def State.moveTo (s : State) (w : Option Word) : State := w.elim s s.jump

/-- The state an instruction leaves when it completes. -/
def State.completed (s : State) (i : Instr) : State := (s.effect i).moveTo (s.target i)

/-! ### The parts make up the meaning -/

@[simp] theorem State.setReg_self (s : State) (x : Reg) : s.setReg x (s.reg x) = s := by
  simp [State.setReg, State.reg]

theorem State.popAndAdvance_eq (s : State) :
    s.popAndAdvance = (s.setStack s.stack.tail).jump (s.stack.headD s.pc + 2#16) := by
  obtain ⟨hs, h⟩ | ⟨top, older, hs, h⟩ := s.popAndAdvance_cases
  · rw [h, hs, List.tail_nil, List.headD_nil, ← hs]
    rfl
  · rw [h, hs]
    rfl

theorem State.withBytes_eq (s : State) (base count : Nat) (go : State) :
    s.withBytes base count go = (accessFault base count).elim go fun f => s.raise f.1 f.2 := by
  unfold State.withBytes accessFault
  cases boundsFault base count <;> rfl

theorem State.testKey_eq (s : State) (x : Reg) (go : Bool → State) :
    s.testKey x go = (keyFault (s.reg x)).elim (go (s.namedKeyIsDown x)) fun f => s.raise f.1 f.2 := by
  unfold State.testKey keyFault State.namedKeyIsDown
  by_cases h : (s.reg x).toNat < 16
  · rw [if_pos h, keyNamed_of_lt h]
    rfl
  · rw [if_neg h, keyNamed_of_ge (by omega)]
    rfl

/-- Executing an instruction is its fault entry, or its effect and then its move of `pc`. -/
theorem exec_eq (i : Instr) (s : State) :
    exec i s = .next ((s.faultOf i).elim (s.completed i) fun f => s.raise f.1 f.2) := by
  cases i
  case ret => exact congrArg _ s.popAndAdvance_eq
  case call =>
    simp only [exec, execCall, State.callWithin, State.faultOf]
    split <;> rfl
  case drw | ldB | ldMemVx => exact congrArg _ (s.withBytes_eq _ _ _)
  case ldVxMem =>
    simp [exec, execLdVxMem, State.withBytes_eq, State.faultOf, State.completed, State.effect, State.target, State.moveTo,
      State.advance]
  case skp | sknp => exact congrArg _ (s.testKey_eq _ _)
  case ldVxK =>
    simp only [exec, execLdVxK, State.faultOf, State.completed, State.effect, State.target]
    cases s.lowestKey with
    | none => exact congrArg _ (s.setReg_self _).symm
    | some k => rfl
  all_goals rfl

/-- The fault an instruction takes is the one R207 gives it. -/
theorem executeFault_of_faultOf {i : Instr} {s : State} {c : HaltStatus} {w : Word} (h : s.faultOf i = some (c, w)) :
    executeFault i = some c := by
  cases i
  case call =>
    simp only [State.faultOf] at h
    split at h <;> cases h
    rfl
  case drw | ldB | ldMemVx | ldVxMem =>
    obtain ⟨info, -, h⟩ := Option.map_eq_some_iff.mp h
    cases h
    rfl
  case skp | sknp =>
    simp only [State.faultOf, keyFault] at h
    split at h <;> cases h
    rfl
  all_goals cases h

theorem executeFault_ne_running (i : Instr) : executeFault i ≠ some .running := by
  cases i <;> simp [executeFault]

/-- Everything an instruction can do: complete, or take its one execute-time fault. -/
theorem exec_cases {i : Instr} {s t : State} (h : exec i s = .next t) :
    (s.faultOf i = none ∧ t = s.completed i) ∨
    ∃ c w, executeFault i = some c ∧ c ≠ .running ∧ t = s.raise c w := by
  rw [exec_eq] at h
  cases hf : s.faultOf i with
  | none =>
    rw [hf] at h
    cases h
    exact .inl ⟨rfl, rfl⟩
  | some f =>
    rw [hf] at h
    cases h
    have hi := executeFault_of_faultOf hf
    exact .inr ⟨f.1, f.2, hi, fun hr => executeFault_ne_running i (hr ▸ hi), rfl⟩

/-! ### What the move of `pc` leaves unchanged -/

section
variable (s : State) (w : Option Word)

@[simp] theorem State.moveTo_mem : (s.moveTo w).mem = s.mem := by cases w <;> rfl
@[simp] theorem State.moveTo_reg (k : Reg) : (s.moveTo w).reg k = s.reg k := by cases w <;> rfl
@[simp] theorem State.moveTo_i : (s.moveTo w).i = s.i := by cases w <;> rfl
@[simp] theorem State.moveTo_pc : (s.moveTo w).pc = w.elim s.pc s.params.cutPc := by cases w <;> rfl
@[simp] theorem State.moveTo_stack : (s.moveTo w).stack = s.stack := by cases w <;> rfl
@[simp] theorem State.moveTo_dt : (s.moveTo w).dt = s.dt := by cases w <;> rfl
@[simp] theorem State.moveTo_st : (s.moveTo w).st = s.st := by cases w <;> rfl
@[simp] theorem State.moveTo_key : (s.moveTo w).key = s.key := by cases w <;> rfl
@[simp] theorem State.moveTo_fb : (s.moveTo w).fb = s.fb := by cases w <;> rfl
@[simp] theorem State.moveTo_halt : (s.moveTo w).halt = s.halt := by cases w <;> rfl
@[simp] theorem State.moveTo_haltInfo : (s.moveTo w).haltInfo = s.haltInfo := by cases w <;> rfl
@[simp] theorem State.moveTo_draws : (s.moveTo w).draws = s.draws := by cases w <;> rfl
@[simp] theorem State.moveTo_params : (s.moveTo w).params = s.params := by cases w <;> rfl

end

/-! ### What the effect leaves unchanged (10_state.md R10, R12) -/

section
variable (s : State) (i : Instr)

@[simp] theorem State.effect_pc : (s.effect i).pc = s.pc := by cases i <;> simp [State.effect]
@[simp] theorem State.effect_key : (s.effect i).key = s.key := by cases i <;> simp [State.effect]
@[simp] theorem State.effect_halt : (s.effect i).halt = s.halt := by cases i <;> simp [State.effect]
@[simp] theorem State.effect_haltInfo : (s.effect i).haltInfo = s.haltInfo := by cases i <;> simp [State.effect]
@[simp] theorem State.effect_params : (s.effect i).params = s.params := by cases i <;> simp [State.effect]

variable {i}

theorem State.effect_mem (h : ∀ x, i ≠ .ldB x ∧ i ≠ .ldMemVx x) : (s.effect i).mem = s.mem := by
  cases i
  case ldB x => exact absurd rfl (h x).1
  case ldMemVx x => exact absurd rfl (h x).2
  all_goals simp [State.effect]

theorem State.effect_i (h : ∀ n x, i ≠ .ldI n ∧ i ≠ .addI x ∧ i ≠ .ldF x ∧ i ≠ .ldMemVx x ∧ i ≠ .ldVxMem x) :
    (s.effect i).i = s.i := by
  cases i
  case ldI n =>
    obtain ⟨hn, -⟩ := h n 0
    exact absurd rfl hn
  case addI x =>
    obtain ⟨-, hn, -⟩ := h 0 x
    exact absurd rfl hn
  case ldF x =>
    obtain ⟨-, -, hn, -⟩ := h 0 x
    exact absurd rfl hn
  case ldMemVx x =>
    obtain ⟨-, -, -, hn, -⟩ := h 0 x
    exact absurd rfl hn
  case ldVxMem x =>
    obtain ⟨-, -, -, -, hn⟩ := h 0 x
    exact absurd rfl hn
  all_goals simp [State.effect]

theorem State.effect_stack (h : ∀ n, i ≠ .call n ∧ i ≠ .ret) : (s.effect i).stack = s.stack := by
  cases i
  case call n => exact absurd rfl (h n).1
  case ret => exact absurd rfl (h 0).2
  all_goals simp [State.effect]

theorem State.effect_dt (h : ∀ x, i ≠ .ldDtVx x) : (s.effect i).dt = s.dt := by
  cases i
  case ldDtVx x => exact absurd rfl (h x)
  all_goals simp [State.effect]

theorem State.effect_st (h : ∀ x, i ≠ .ldStVx x) : (s.effect i).st = s.st := by
  cases i
  case ldStVx x => exact absurd rfl (h x)
  all_goals simp [State.effect]

theorem State.effect_fb (h : ∀ x y n, i ≠ .cls ∧ i ≠ .drw x y n) : (s.effect i).fb = s.fb := by
  cases i
  case cls => exact absurd rfl (h 0 0 0).1
  case drw x y n => exact absurd rfl (h x y n).2
  all_goals simp [State.effect]

theorem State.effect_draws (h : ∀ x nn, i ≠ .rnd x nn) : (s.effect i).draws = s.draws := by
  cases i
  case rnd x nn => exact absurd rfl (h x nn)
  all_goals simp [State.effect]

/-- The effect leaves every register outside the instruction's row of R12's table. -/
theorem State.effect_reg {k : Reg} (h : k ∉ writtenRegs i) : (s.effect i).reg k = s.reg k := by
  cases i
  case ldImm | addImm | ldReg | orReg | andReg | xorReg | rnd | ldVxDt | ldVxK =>
    exact State.reg_setReg_of_ne _ _ (List.ne_of_not_mem_cons h)
  case addReg | sub | suby | shr | shl =>
    obtain ⟨hx, hf⟩ : k ≠ _ ∧ k ≠ VF := by simpa [writtenRegs] using h
    simp only [State.effect, State.reg_setFlag, State.reg_setReg, if_neg hx.symm, if_neg hf.symm]
  case drw => exact State.reg_setReg_of_ne _ _ (List.ne_of_not_mem_cons h)
  case ldVxMem x =>
    have hk : ¬ k ≤ x := fun hk => h (List.mem_filter.mpr ⟨List.mem_finRange k, decide_eq_true hk⟩)
    rw [State.effect, State.bumpIndex_reg, State.reg_loadRegs, if_neg hk]
  all_goals simp [State.effect]

end

/-! ### The completed state, item by item -/

section
variable (s : State) (i : Instr)

theorem State.completed_mem : (s.completed i).mem = (s.effect i).mem := State.moveTo_mem ..
theorem State.completed_reg (k : Reg) : (s.completed i).reg k = (s.effect i).reg k := State.moveTo_reg ..
theorem State.completed_i : (s.completed i).i = (s.effect i).i := State.moveTo_i ..
theorem State.completed_stack : (s.completed i).stack = (s.effect i).stack := State.moveTo_stack ..
theorem State.completed_dt : (s.completed i).dt = (s.effect i).dt := State.moveTo_dt ..
theorem State.completed_st : (s.completed i).st = (s.effect i).st := State.moveTo_st ..
theorem State.completed_fb : (s.completed i).fb = (s.effect i).fb := State.moveTo_fb ..
theorem State.completed_draws : (s.completed i).draws = (s.effect i).draws := State.moveTo_draws ..
@[simp] theorem State.completed_pc : (s.completed i).pc = (s.target i).elim s.pc s.params.cutPc := by simp [State.completed]
@[simp] theorem State.completed_key : (s.completed i).key = s.key := by simp [State.completed]
@[simp] theorem State.completed_halt : (s.completed i).halt = s.halt := by simp [State.completed]
@[simp] theorem State.completed_haltInfo : (s.completed i).haltInfo = s.haltInfo := by simp [State.completed]
@[simp] theorem State.completed_params : (s.completed i).params = s.params := by simp [State.completed]

end

/-- Completing does not halt the machine. -/
theorem State.running_completed {s : State} (h : s.running) (i : Instr) : (s.completed i).running :=
  (s.completed_halt i).trans h

end Sys2Proof.Machine
end

section
/-! PROOFS. The rules of 10_state.md and 60_exceptions.md about every instruction and every step: which items an instruction
writes, how it moves `pc`, how it halts, and what a step comes to. -/

namespace Sys2Proof.Machine

/-! ### Which items an instruction writes (10_state.md R10, R12) -/

/-- Settles O22: an instruction that completes writes its effect's registers, a fault entry none. -/
theorem registersAreWrittenOnlyAsTheTableSays : Obligations.RegistersAreWrittenOnlyAsTheTableSays := by
  intro i s t h k hk
  obtain ⟨-, rfl⟩ | ⟨c, w, -, -, rfl⟩ := exec_cases h
  · exact (s.completed_reg i k).trans (s.effect_reg hk)
  · exact s.raise_reg c w k

/-- Settles O21: item by item, what the effect leaves unchanged; a fault entry writes `HALT` and `HALT_INFO` alone. -/
theorem stateIsWrittenOnlyByTheNamedInstructions : Obligations.StateIsWrittenOnlyByTheNamedInstructions := by
  intro i s t h
  obtain ⟨-, rfl⟩ | ⟨c, w, hi, hc, rfl⟩ := exec_cases h
  · exact ⟨fun h => (s.completed_mem i).trans (s.effect_mem h), fun k h => (s.completed_reg i k).trans (s.effect_reg h),
      fun h => (s.completed_i i).trans (s.effect_i h), fun hr ht => absurd (State.running_completed hr i) ht,
      fun h => (s.completed_stack i).trans (s.effect_stack h), fun h => (s.completed_dt i).trans (s.effect_dt h),
      fun h => (s.completed_st i).trans (s.effect_st h), s.completed_key i,
      fun h => (s.completed_fb i).trans (s.effect_fb h), fun _ => ⟨s.completed_halt i, s.completed_haltInfo i⟩,
      fun h => (s.completed_draws i).trans (s.effect_draws h), s.completed_params i⟩
  · refine ⟨fun _ => rfl, fun _ _ => rfl, fun _ => rfl, fun _ _ => rfl, fun _ => rfl, fun _ => rfl, fun _ => rfl, rfl,
      fun _ => rfl, fun hn => ?_, fun _ => rfl, rfl⟩
    rw [hi] at hn
    cases hn

/-! ### How an instruction moves `pc` and how it halts (R14, R207) -/

/-- An instruction that completes moves `pc` in its one way. -/
theorem pcMoves_completed (i : Instr) (s : State) : pcMoves i s (s.completed i) := by
  cases i
  case jp | call => simp [pcMoves, State.target]
  case jpV0 nnn => simp [pcMoves, State.target, toNat_offsetTarget]
  case ret =>
    cases hs : s.stack with
    | nil => exact .inl ⟨by simp [State.sp, hs], by simp [State.target, hs, State.pcPlus]⟩
    | cons top older => exact .inr ⟨top, State.stackEntry_newest hs, by simp [State.target, hs]⟩
  case seImm | sneImm | seReg | sneReg | skp | sknp =>
    simp only [pcMoves, State.completed_pc, State.target, State.skipTarget, Option.elim_some]
    split
    · exact .inr rfl
    · exact .inl rfl
  case ldVxK =>
    simp only [pcMoves, State.completed_pc, State.target]
    cases s.lowestKey with
    | none => exact .inl rfl
    | some k => exact .inr rfl
  all_goals exact s.completed_pc _

/-- Settles O23: completing moves `pc` by `pcMoves`, halting leaves it. -/
theorem counterMovesInTheStatedWay : Obligations.CounterMovesInTheStatedWay := by
  intro i s t hr h
  obtain ⟨-, rfl⟩ | ⟨c, w, -, hc, rfl⟩ := exec_cases h
  · exact ⟨fun _ => pcMoves_completed i s, fun ht => absurd (State.running_completed hr i) ht⟩
  · exact ⟨fun ht => absurd ht hc, fun _ => rfl⟩

/-- Settles O10: completing does not halt, so the halt is the instruction's own fault entry. -/
theorem onlyTheNamedInstructionsFault : Obligations.OnlyTheNamedInstructionsFault := by
  intro i s t hr h ht
  obtain ⟨-, rfl⟩ | ⟨c, w, hi, -, rfl⟩ := exec_cases h
  · exact absurd (State.running_completed hr i) ht
  · exact ⟨hi, rfl⟩

/-! ### What a step comes to (30_encoding.md R60) -/

/-- The state after a step: the same one while halted; a fault entry; or the instruction at `pc` completed. -/
theorem step_next_cases {s t : State} (h : step s = .next t) :
    (¬ s.running ∧ t = s) ∨ (∃ c w, c ≠ .running ∧ t = s.raise c w) ∨
    ∃ i, s.running ∧ s.pc.toNat ≤ 0xFFE ∧ s.faultOf i = none ∧ t = s.completed i := by
  obtain ⟨hr, hs⟩ | ⟨-, -, hs⟩ | ⟨-, -, -, hs⟩ | ⟨i, hr, hpc, -, hs⟩ := step_cases s
  all_goals rw [hs] at h
  · cases h
    exact .inl ⟨hr, rfl⟩
  · cases h
    exact .inr (.inl ⟨_, _, by decide, rfl⟩)
  · cases h
    exact .inr (.inl ⟨_, _, by decide, rfl⟩)
  · obtain ⟨hf, rfl⟩ | ⟨c, w, -, hc, rfl⟩ := exec_cases h
    · exact .inr (.inr ⟨i, hr, hpc, hf, rfl⟩)
    · exact .inr (.inl ⟨c, w, hc, rfl⟩)

/-- Settles O8: each case of a step answers a next state, and so does every instruction. -/
theorem everyStepAnswersANextState : Obligations.EveryStepAnswersANextState := by
  intro s
  obtain ⟨-, h⟩ | ⟨-, -, h⟩ | ⟨-, -, -, h⟩ | ⟨i, -, -, -, h⟩ := step_cases s
  case inr.inr.inr => exact ⟨_, h.trans (exec_eq i s)⟩
  all_goals exact ⟨_, h⟩

/-- Settles O9: a step that halts is a fault entry. -/
theorem faultsArePrecise : Obligations.FaultsArePrecise := by
  intro s t hr h ht
  obtain ⟨hs, -⟩ | ⟨c, w, -, rfl⟩ | ⟨i, -, -, -, rfl⟩ := step_next_cases h
  · exact absurd hr hs
  · exact faultEntry_raise s c w
  · exact absurd (State.running_completed hr i) ht

theorem step_of_halted {s : State} (h : ¬ s.running) : step s = .next s := by
  rw [step, State.front, if_neg h]

/-- The bounds fault of the fetch (R43, R60). -/
theorem step_of_pc_gt {s : State} (hr : s.running) (h : s.pc.toNat > 0xFFE) :
    step s = .next (s.raise .memoryBoundsFault (BitVec.ofNat 16 (max s.pc.toNat 0x1000))) := by
  obtain ⟨hn, -⟩ | ⟨-, -, hs⟩ | ⟨-, hp, -⟩ | ⟨i, -, hp, -⟩ := step_cases s
  · exact absurd hr hn
  · exact hs
  · omega
  · omega

theorem step_of_decode_none {s : State} (hr : s.running) (h : s.pc.toNat ≤ 0xFFE) (hd : decodeWord s.fetchWord = none) :
    step s = .next (s.raise .decodeError s.fetchWord) := by
  obtain ⟨hn, -⟩ | ⟨-, hp, -⟩ | ⟨-, -, -, hs⟩ | ⟨i, -, -, hi, -⟩ := step_cases s
  · exact absurd hr hn
  · omega
  · exact hs
  · rw [hd] at hi
    cases hi

theorem step_of_decode_some {s : State} {i : Instr} (hr : s.running) (h : s.pc.toNat ≤ 0xFFE)
    (hd : decodeWord s.fetchWord = some i) : step s = exec i s := by
  obtain ⟨hn, -⟩ | ⟨-, hp, -⟩ | ⟨-, -, hi, -⟩ | ⟨j, -, -, hj, hs⟩ := step_cases s
  · exact absurd hr hn
  · omega
  · rw [hd] at hi
    cases hi
  · rw [hd] at hj
    cases hj
    exact hs

theorem decode_two_eq_instr {a b : Byte} {i : Instr} {rest : List Byte} (h : decode [a, b] = .instr i rest) :
    decodeWord (wordOfBytes a b) = some i := by
  simp only [decode] at h
  split at h <;> cases h
  assumption

/-- Settles O6: the two bytes at `pc` make the fetched word. -/
theorem stepRunsTheDecodedInstruction : Obligations.StepRunsTheDecodedInstruction :=
  fun _ _ _ hr hpc hd => step_of_decode_some hr hpc (decode_two_eq_instr hd)

/-- Settles O7: by the cases of a step; a row of the map selects the fetched word exactly when it decodes. -/
theorem stepIsFetchDecodeExecute : Obligations.StepIsFetchDecodeExecute := by
  intro s op
  refine ⟨step_of_halted, fun hr hpc => ⟨_, step_of_pc_gt hr hpc, faultEntry_raise s _ _⟩, fun hr hpc hno => ?illegal,
    fun hr hpc r hmem hsel => ?row⟩
  case illegal =>
    have hd : decodeWord s.fetchWord = none := by
      cases hd : decodeWord s.fetchWord with
      | none => rfl
      | some i =>
        have hmem := rowOf_mem_opcodeMap i
        exact absurd (rowSelects_eq_true.mp ((rowSelects_iff hmem).mpr ⟨i, hd, rfl⟩)) (hno _ hmem)
    exact ⟨_, step_of_decode_none hr hpc hd, faultEntry_raise s _ _⟩
  case row =>
    obtain ⟨i, hd, hrow⟩ := (rowSelects_iff hmem).mp (rowSelects_eq_true.mpr hsel)
    exact ⟨i, hd, hrow, encodeOfDecodeGivesTheWord op i hd, step_of_decode_some hr hpc hd⟩

/-- Settles O25: the step is the jump, which writes to `pc` the value it has. -/
theorem selfJumpIsAFixedPoint : Obligations.SelfJumpIsAFixedPoint := by
  rintro s ⟨hr, hpc, nnn, hd, heq⟩
  have haddr : addressOf nnn = s.pc := BitVec.eq_of_toNat_eq ((toNat_addressOf nnn).trans heq)
  have hjump : s.jump (addressOf nnn) = s := by
    rw [State.jump, Params.cutPc_addressOf, haddr]
  rw [step_of_decode_some hr hpc hd]
  exact congrArg _ hjump

end Sys2Proof.Machine
end

section
/-! PROOFS. The invariant of 10_state.md R26 with the canonical form of memory: an instruction, a step and every host event
keep it, so every run does. -/

namespace Sys2Proof.Machine

/-! ### Memory (20_memory.md R40) -/

/-- The canonical form speaks of memory and the font alone. -/
theorem State.memWf_congr {s t : State} (hm : t.mem = s.mem) (hp : t.params = s.params) : t.memWf = s.memWf := by
  rw [State.memWf, State.memWf, State.font, State.font, hm, hp]

/-- An access that does not fault has all its bytes in range. -/
theorem accessFault_eq_none {base count : Nat} : accessFault base count = none ↔ count = 0 ∨ base + count ≤ Config.memSize := by
  rw [accessFault, Option.map_eq_none_iff, boundsFault_eq_none, Config.memSize]

/-- A checked store of at least one byte keeps memory canonical. -/
theorem State.memWf_storeBytes_of_accessFault {s : State} (h : s.memWf = true) {base : Nat} {bytes : List Byte}
    (hf : accessFault base bytes.length = none) : (s.storeBytes base bytes).memWf = true := by
  obtain h0 | hle := accessFault_eq_none.mp hf
  · rw [List.eq_nil_of_length_eq_zero h0]
    exact h
  · exact State.memWf_storeBytes h hle

theorem State.memWf_completed {s : State} {i : Instr} (h : s.memWf = true) (hf : s.faultOf i = none) :
    (s.completed i).memWf = true := by
  rw [State.memWf_congr (s.completed_mem i) ((s.completed_params i).trans (s.effect_params i).symm)]
  cases i
  case ldB x => exact State.memWf_storeBytes_of_accessFault h hf
  case ldMemVx x => exact State.memWf_storeBytes_of_accessFault h ((s.length_regsUpTo x).symm ▸ hf)
  all_goals exact (State.memWf_congr (State.effect_mem s (by simp)) (State.effect_params s _)).trans h

/-- Settles O19: a store is checked before it is made, and a fault entry stores nothing. -/
theorem everyInstructionKeepsMemoryCanonical : Obligations.EveryInstructionKeepsMemoryCanonical := by
  intro i s t hm h
  obtain ⟨hf, rfl⟩ | ⟨c, w, -, -, rfl⟩ := exec_cases h
  · exact State.memWf_completed hm hf
  · exact hm

theorem Memory.read_cons_self {font : List Byte} {a : Nat} {v : Byte} {rest : Memory} :
    Memory.read font ((a, v) :: rest) a = v := by
  rw [Memory.read, if_pos rfl]

theorem Memory.read_cons_of_ne {font : List Byte} {a c : Nat} {v : Byte} {rest : Memory} (h : c ≠ a) :
    Memory.read font ((a, v) :: rest) c = Memory.read font rest c := by
  rw [Memory.read, if_neg h]

/-- A listed byte differs from the reset contents, so a canonical memory that reads alike at its address does not start
above it. -/
theorem Memory.le_of_read_eq {font : List Byte} {lo lo' a : Nat} {v : Byte} {rest m : Memory}
    (h : Memory.wfFrom font lo ((a, v) :: rest) = true) (hm : Memory.wfFrom font lo' m = true)
    (hr : Memory.read font ((a, v) :: rest) a = m.read font a) : lo' ≤ a := by
  obtain ⟨-, -, hv, -⟩ := Memory.wfFrom_cons.mp h
  by_contra hlt
  rw [Memory.read_cons_self, Memory.read_below hm (by omega)] at hr
  exact hv hr

theorem Memory.wfFrom_head {font : List Byte} {lo a : Nat} {v : Byte} {rest : Memory}
    (h : Memory.wfFrom font lo ((a, v) :: rest) = true) : Memory.wfFrom font a ((a, v) :: rest) = true :=
  Memory.wfFrom_cons.mpr ⟨le_rfl, (Memory.wfFrom_cons.mp h).2⟩

theorem Memory.eq_of_read_eq {font : List Byte} {lo : Nat} {m m' : Memory} (h : Memory.wfFrom font lo m = true)
    (h' : Memory.wfFrom font lo m' = true) (hr : ∀ a, m.read font a = m'.read font a) : m = m' := by
  induction m generalizing lo m' with
  | nil =>
    cases m' with
    | nil => rfl
    | cons e' rest' =>
      obtain ⟨-, -, hv, -⟩ := Memory.wfFrom_cons.mp h'
      exact absurd (Memory.read_cons_self.symm.trans (hr e'.1).symm) hv
  | cons e rest ih =>
    obtain ⟨a, v⟩ := e
    obtain ⟨-, -, hv, hrest⟩ := Memory.wfFrom_cons.mp h
    cases m' with
    | nil => exact absurd (Memory.read_cons_self.symm.trans (hr a)) hv
    | cons e' rest' =>
      obtain ⟨b, w⟩ := e'
      obtain ⟨-, -, -, hrest'⟩ := Memory.wfFrom_cons.mp h'
      obtain rfl : a = b := Nat.le_antisymm (Memory.le_of_read_eq h' (Memory.wfFrom_head h) (hr b).symm)
        (Memory.le_of_read_eq h (Memory.wfFrom_head h') (hr a))
      obtain rfl : v = w := Memory.read_cons_self.symm.trans ((hr a).trans Memory.read_cons_self)
      refine congrArg _ (ih hrest hrest' fun c => ?_)
      by_cases hc : c = a
      · rw [hc, Memory.read_below hrest a.lt_succ_self, Memory.read_below hrest' a.lt_succ_self]
      · rw [← Memory.read_cons_of_ne hc, hr c, Memory.read_cons_of_ne hc]

/-- Settles O20: by the entries in order; the first of each is the lowest address that does not read as reset. -/
theorem canonicalMemoriesThatReadAlikeAreEqual : Obligations.CanonicalMemoriesThatReadAlikeAreEqual :=
  fun _ _ _ h h' hr => Memory.eq_of_read_eq h h' hr

/-! ### Instructions and steps -/

theorem toNat_add_le_of_le {v k : Word} (hv : v.toNat ≤ 0xFFE) (hk : k.toNat ≤ 4) : (v + k).toNat ≤ 0x10FE := by
  rw [BitVec.toNat_add]
  omega

theorem State.skipTarget_le {s : State} (hpc : s.pc.toNat ≤ 0xFFE) (c : Bool) : (s.skipTarget c).toNat ≤ 0x10FE := by
  cases c
  · exact toNat_add_le_of_le hpc (by decide)
  · exact toNat_add_le_of_le hpc (by decide)

/-- Where an instruction can be fetched and the stack holds such addresses, it moves `pc` to 0x10FE at most (R14). -/
theorem State.target_le {s : State} {i : Instr} {w : Word} (hpc : s.pc.toNat ≤ 0xFFE) (hst : ∀ e ∈ s.stack, e.toNat ≤ 0xFFE)
    (h : s.target i = some w) : w.toNat ≤ 0x10FE := by
  cases i
  case jp nnn | call nnn =>
    cases h
    rw [toNat_addressOf]
    omega
  case jpV0 nnn =>
    cases h
    rw [toNat_offsetTarget]
    omega
  case ret =>
    cases h
    refine toNat_add_le_of_le ?_ (by decide)
    cases hs : s.stack with
    | nil => exact hpc
    | cons top older => exact hst top (hs ▸ List.mem_cons_self)
  case seImm | sneImm | seReg | sneReg | skp | sknp =>
    cases h
    exact State.skipTarget_le hpc _
  case ldVxK =>
    obtain ⟨-, -, rfl⟩ := Option.map_eq_some_iff.mp h
    exact toNat_add_le_of_le hpc (by decide)
  all_goals
    cases h
    exact toNat_add_le_of_le hpc (by decide)

/-- What an instruction leaves on the stack: all but the newest entry, the call's own address on top, or what was there. -/
theorem State.effect_stack_cases (s : State) (i : Instr) :
    (s.effect i).stack = s.stack.tail ∨ ((∃ nnn, i = .call nnn) ∧ (s.effect i).stack = s.pc :: s.stack) ∨
    (s.effect i).stack = s.stack := by
  cases i
  case ret => exact .inl rfl
  case call nnn => exact .inr (.inl ⟨⟨nnn, rfl⟩, rfl⟩)
  all_goals exact .inr (.inr (s.effect_stack (by simp)))

/-- The entry of a fault keeps the invariant. -/
theorem State.Inv.raise {s : State} (h : s.Inv) {c : HaltStatus} (hc : c ≠ .running) (w : Word) : (s.raise c w).Inv where
  mem_wf := h.mem_wf
  sp_le := h.sp_le
  entries := h.entries
  pc_le := h.pc_le
  info_zero := fun hr => absurd hr hc

/-- An instruction that is fetched and completes keeps the invariant. -/
theorem State.Inv.completed {s : State} (h : s.Inv) (hr : s.running) (hpc : s.pc.toNat ≤ 0xFFE) {i : Instr}
    (hf : s.faultOf i = none) : (s.completed i).Inv where
  mem_wf := State.memWf_completed h.mem_wf hf
  sp_le := by
    have hsp := h.sp_le
    rw [State.sp, s.completed_params, s.completed_stack]
    obtain hs | ⟨⟨nnn, rfl⟩, hs⟩ | hs := s.effect_stack_cases i
    · rw [hs, List.length_tail]
      exact (Nat.sub_le _ _).trans hsp
    · have hne : s.sp ≠ s.params.stackDepth := fun he => by simp [State.faultOf, he] at hf
      rw [hs, List.length_cons]
      exact Nat.lt_of_le_of_ne hsp hne
    · rw [hs]
      exact hsp
  entries := by
    intro e he
    rw [s.completed_stack] at he
    obtain hs | ⟨-, hs⟩ | hs := s.effect_stack_cases i
    · exact h.entries e (List.mem_of_mem_tail (hs ▸ he))
    · obtain rfl | he := List.mem_cons.mp (hs ▸ he)
      · exact hpc
      · exact h.entries e he
    · exact h.entries e (hs ▸ he)
  pc_le := by
    rw [s.completed_pc]
    cases ht : s.target i with
    | none => exact h.pc_le
    | some w =>
      have hw := State.target_le hpc h.entries ht
      rwa [Option.elim_some, Params.cutPc_of_lt _ (by omega)]
  info_zero := fun _ => (s.completed_haltInfo i).trans (h.info_zero hr)

/-- Settles O15: by the cases of a step. -/
theorem everyStepKeepsInv : Obligations.EveryStepKeepsInv := by
  intro s t h hs
  obtain ⟨-, rfl⟩ | ⟨c, w, hc, rfl⟩ | ⟨i, hr, hpc, hf, rfl⟩ := step_next_cases hs
  · exact h
  · exact h.raise hc w
  · exact h.completed hr hpc hf

/-- Settles O16: nothing is stored and the stack is empty. -/
theorem resetHasInv : Obligations.ResetHasInv := fun p =>
  { mem_wf := Memory.wf_resetWith p
    sp_le := Nat.zero_le _
    entries := fun _ he => absurd he List.not_mem_nil
    pc_le := (by decide : (0x0200#16).toNat ≤ 0x10FE)
    info_zero := fun _ => rfl }

/-! ### Host events -/

theorem State.unlessHalted_of_running {s : State} (h : s.running) (go : State) : s.unlessHalted go = go := if_pos h

theorem State.unlessHalted_of_halted {s : State} (h : ¬ s.running) (go : State) : s.unlessHalted go = s := if_neg h

theorem State.Inv.unlessHalted {s go : State} (h : s.Inv) (hgo : go.Inv) : (s.unlessHalted go).Inv := by
  rw [State.unlessHalted]
  split
  · exact hgo
  · exact h

theorem imageFits_eq_true {bytes : List Byte} : imageFits bytes = true ↔ bytes.length ≤ 3584 := decide_eq_true_iff

/-- An image that fits lies inside the address space (R233). -/
theorem State.Inv.loadEvent {s : State} (h : s.Inv) {bytes : List Byte} (hl : bytes.length ≤ 3584) :
    (loadEvent bytes s).Inv := by
  refine h.unlessHalted { h with mem_wf := State.memWf_storeBytes h.mem_wf ?_ }
  rw [Config.programStart, Config.memSize]
  omega

/-- Every host event keeps the invariant. -/
theorem State.Inv.applyEvent {s t : State} (h : s.Inv) {e : Event} (he : applyEvent e s = .next t) : t.Inv := by
  cases e
  case reset =>
    cases he
    exact { resetHasInv s.params with }
  case load bytes =>
    simp only [Machine.applyEvent] at he
    split at he <;> cases he
    next hl => exact h.loadEvent (imageFits_eq_true.mp hl)
  case step => exact everyStepKeepsInv s t h he
  all_goals
    cases he
    exact h.unlessHalted { h with }

/-- A run of at least one event: the event is in the boot order, and the run goes on from its next state. -/
theorem runEvents_cons_eq_next {p : BootPhase} {e : Event} {es : List Event} {s t : State} :
    runEvents p (e :: es) s = .next t ↔
      ∃ q u, bootNext p e = some q ∧ applyEvent e s = .next u ∧ runEvents q es u = .next t := by
  rw [runEvents]
  cases bootNext p e with
  | none => simp
  | some q => cases applyEvent e s <;> simp

/-- What every event keeps, every run keeps. -/
theorem runEvents_keeps {P : State → Prop} (hP : ∀ (e : Event) (s t : State), P s → applyEvent e s = .next t → P t)
    (p : BootPhase) (es : List Event) (s t : State) (h : P s) (hr : runEvents p es s = .next t) : P t := by
  induction es generalizing p s with
  | nil =>
    cases hr
    exact h
  | cons e es ih =>
    obtain ⟨q, u, -, he, hrest⟩ := runEvents_cons_eq_next.mp hr
    exact ih q u (hP e s u h he) hrest

/-- Settles O17: every event keeps the invariant. -/
theorem everyRunOfEventsKeepsInv : Obligations.EveryRunOfEventsKeepsInv :=
  runEvents_keeps fun _ _ _ h he => h.applyEvent he

end Sys2Proof.Machine
end

section
/-! PROOFS. Reset and the host's events (70_reset_and_hazards.md, 60_exceptions.md sections 5 and 6): what each event
changes, which runs complete, that none changes a parameter, and that every width of `pc` behaves alike. -/

namespace Sys2Proof.Machine

/-! ### Reset (10_state.md R24, 20_memory.md R46) -/

/-- Settles O12: field by field; past the font memory is zero. -/
theorem resetLeavesTheStatedValues : Obligations.ResetLeavesTheStatedValues := by
  refine ⟨fun p => ⟨fun a _ => rfl, fun a ha _ => Memory.resetByte_of_ge p ha, fun k => ?reg, rfl, rfl, rfl, rfl, rfl,
    fun k => ?key, Screen.cell_clear, rfl, rfl, rfl⟩, rfl, rfl, rfl⟩
  case reg => simp [State.resetWith, State.reg]
  case key => simp [State.resetWith, State.keyIsDown]

/-- Glyph A stands between the 50 bytes of the digits and the letters. -/
theorem Params.font_glyphA (p : Params) {j : Nat} (h : j < 5) : p.font.getD (50 + j) 0x00#8 = glyphA.getD j 0x00#8 := by
  rw [Params.font, List.getD_append _ _ _ _ (by simp [glyphA]; omega), List.getD_append_right _ _ _ _ (by simp)]
  simp

/-- Settles O13: nothing is stored at reset, so the bytes read are the font's. -/
theorem fontHoldsGlyphA : Obligations.FontHoldsGlyphA := by
  refine fun p => ⟨p.length_font, ?_⟩
  have hread : ∀ j < 5, (State.resetWith p).readByte (50 + j) = glyphA.getD j 0x00#8 := fun j hj => p.font_glyphA hj
  apply List.ext_getElem
  · rw [State.length_readBytes]
    rfl
  · intro j hj _
    rw [State.getElem_readBytes, hread j (by simpa using hj)]
    exact List.getD_eq_getElem _ _ _

/-- Settles O14: the event is the reset state but for the count of draws. -/
theorem resetFromAnyStateForgetsIt : Obligations.ResetFromAnyStateForgetsIt := by
  refine fun s => ⟨_, rfl, fun p hp => ?_, rfl, rfl⟩
  cases p
  case draws => exact absurd (List.mem_singleton_self _) hp
  case memory | registers => exact fun _ => rfl
  all_goals rfl

/-! ### The events that a halted machine ignores (R206) -/

/-- Settles O11: every event but RESET asks whether the machine runs. -/
theorem haltedMachineIsFrozenUntilReset : Obligations.HaltedMachineIsFrozenUntilReset := by
  intro s h
  refine ⟨fun e hne hfit => ?_, _, rfl, rfl⟩
  cases e
  case reset => exact absurd rfl hne
  case load bytes =>
    rw [applyEvent, if_pos (imageFits_eq_true.mpr (hfit bytes rfl)), loadEvent, State.unlessHalted_of_halted h]
  case step => exact step_of_halted h
  all_goals exact congrArg _ (State.unlessHalted_of_halted h _)

/-! ### LOAD (R233) -/

theorem onlyChanges_storeBytes (s : State) (base : Nat) (bytes : List Byte) :
    OnlyChanges [.memory] s (s.storeBytes base bytes) := by
  intro p hp
  cases p
  case memory => exact absurd (List.mem_singleton_self _) hp
  all_goals simp [samePart]

theorem State.readByte_storeBytes_add {s : State} (h : s.memWf = true) {base : Nat} {bytes : List Byte}
    (hb : base + bytes.length ≤ Config.memSize) {j : Nat} (hj : j < bytes.length) :
    (s.storeBytes base bytes).readByte (base + j) = bytes[j] := by
  rw [State.readByte_storeBytes h hb, dif_pos (by omega)]
  simp

theorem otherBytes_storeBytes {s : State} (h : s.memWf = true) {base : Nat} {bytes : List Byte}
    (hb : base + bytes.length ≤ Config.memSize) : OtherBytes base bytes.length s (s.storeBytes base bytes) := by
  intro a ha
  rw [State.readByte_storeBytes h hb, dif_neg (by omega)]

/-- Settles O57: an image that fits is one store inside the address space. -/
theorem loadCopiesTheImage : Obligations.LoadCopiesTheImage := by
  intro bytes s hm hr
  refine ⟨fun hl => ⟨s.storeBytes 0x200 bytes, ?load, fun j hj => ?_, ?_, onlyChanges_storeBytes s _ _⟩, fun hl => ?long⟩
  case load =>
    rw [applyEvent, if_pos (imageFits_eq_true.mpr hl), loadEvent, State.unlessHalted_of_running hr, Config.programStart]
  case long =>
    rw [applyEvent, if_neg fun hf => absurd (imageFits_eq_true.mp hf) (by omega)]
  all_goals have hb : 0x200 + bytes.length ≤ Config.memSize := by rw [Config.memSize]; omega
  · exact State.readByte_storeBytes_add hm hb hj
  · exact otherBytes_storeBytes hm hb

/-! ### TICK and the key events (R215, R216) -/

theorem toNat_countDown (t : Byte) : (countDown t).toNat = t.toNat - 1 := by
  rw [countDown]
  split
  · rw [BitVec.toNat_sub]
    have := t.isLt
    simp
    omega
  · omega

/-- Settles O55: while running both timers are written and nothing else. -/
theorem tickCountsBothTimersDown : Obligations.TickCountsBothTimersDown := by
  intro s
  refine ⟨tickEvent s, rfl, fun hr => ?_, fun hh => State.unlessHalted_of_halted hh _⟩
  rw [tickEvent, State.unlessHalted_of_running hr]
  exact ⟨toNat_countDown s.dt, toNat_countDown s.st, (onlyChanges_setDt s _).trans (onlyChanges_setSt _ _)⟩

theorem State.keyIsDown_setKey (s : State) (k j : Key) (d : Bool) :
    (s.setKey k d).keyIsDown j = if k = j then d else s.keyIsDown j := by
  simp only [State.keyIsDown, State.setKey_key, Fin.getElem_fin, Vector.getElem_set, Fin.ext_iff]

theorem onlyChanges_setKey (s : State) (k : Key) (d : Bool) : OnlyChanges [.keys] s (s.setKey k d) := by
  intro p hp
  cases p
  case keys => exact absurd (List.mem_singleton_self _) hp
  all_goals simp [samePart]

/-- Settles O56: each event writes one flag. -/
theorem keyEventsSetOneFlag : Obligations.KeyEventsSetOneFlag := by
  intro k s hr
  refine ⟨s.setKey k true, s.setKey k false, congrArg _ (State.unlessHalted_of_running hr _),
    congrArg _ (State.unlessHalted_of_running hr _), ?_, ?_, fun j hj => ⟨?_, ?_⟩,
    onlyChanges_setKey s k true, onlyChanges_setKey s k false⟩
  · rw [State.keyIsDown_setKey, if_pos rfl]
  · rw [State.keyIsDown_setKey, if_pos rfl]
  · rw [State.keyIsDown_setKey, if_neg hj.symm]
  · rw [State.keyIsDown_setKey, if_neg hj.symm]

/-! ### Runs (R234) -/

/-- Every event with an image that fits answers a next state. -/
theorem exists_applyEvent_eq_next (e : Event) (s : State) (hfit : ∀ bytes, e = .load bytes → bytes.length ≤ 3584) :
    ∃ t, applyEvent e s = .next t := by
  cases e
  case load bytes => exact ⟨_, if_pos (imageFits_eq_true.mpr (hfit bytes rfl))⟩
  case step => exact everyStepAnswersANextState s
  all_goals exact ⟨_, rfl⟩

/-- Settles O18: along the list, each event is in order and answers a next state. -/
theorem everyLegalRunCompletes : Obligations.EveryLegalRunCompletes := by
  intro p es
  induction es generalizing p with
  | nil => exact fun s _ _ => ⟨s, rfl⟩
  | cons e es ih =>
    intro s hlegal hfit
    rw [bootLegal] at hlegal
    split at hlegal
    · next q hq =>
      obtain ⟨u, hu⟩ := exists_applyEvent_eq_next e s fun bytes he => hfit bytes (he ▸ List.mem_cons_self)
      obtain ⟨t, ht⟩ := ih q u hlegal fun bytes hb => hfit bytes (List.mem_cons_of_mem _ hb)
      exact ⟨t, runEvents_cons_eq_next.mpr ⟨q, u, hq, hu, ht⟩⟩
    · cases hlegal

theorem State.unlessHalted_params {s go : State} (h : go.params = s.params) : (s.unlessHalted go).params = s.params := by
  rw [State.unlessHalted]
  split
  · exact h
  · rfl

theorem applyEvent_params {e : Event} {s t : State} (h : applyEvent e s = .next t) : t.params = s.params := by
  cases e
  case load bytes =>
    simp only [applyEvent] at h
    split at h <;> cases h
    exact State.unlessHalted_params rfl
  case step =>
    obtain ⟨-, rfl⟩ | ⟨c, w, -, rfl⟩ | ⟨i, -, -, -, rfl⟩ := step_next_cases h
    · rfl
    · rfl
    · exact s.completed_params i
  case reset =>
    cases h
    rfl
  all_goals
    cases h
    exact State.unlessHalted_params rfl

/-- Settles O26: no event writes the parameters. -/
theorem parametersAreFixedForARun : Obligations.ParametersAreFixedForARun := fun p es s t =>
  runEvents_keeps (P := fun u => u.params = s.params) (fun _ _ _ hu h => (applyEvent_params h).trans hu) p es s t rfl

/-! ### Another width of `pc` (93_implementation_defined.md U11)

Everything but the cut of a jump's target reads the same on the machine of another width, and the targets of a run fit
13 bits. -/

section
variable (s : State) (n : Nat)

theorem withPcBitsBeyond13_jump {w : Word} (h : w.toNat < 0x2000) :
    (withPcBitsBeyond13 s n).jump w = withPcBitsBeyond13 (s.jump w) n := by
  simp only [State.jump, Params.cutPc_of_lt _ h, withPcBitsBeyond13]

theorem withPcBitsBeyond13_faultOf (i : Instr) : (withPcBitsBeyond13 s n).faultOf i = s.faultOf i := by
  cases i <;> rfl

theorem withPcBitsBeyond13_target (i : Instr) : (withPcBitsBeyond13 s n).target i = s.target i := by
  cases i <;> rfl

theorem withPcBitsBeyond13_effect (i : Instr) : (withPcBitsBeyond13 s n).effect i = withPcBitsBeyond13 (s.effect i) n := by
  cases i <;> rfl

end

theorem withPcBitsBeyond13_completed {s : State} (n : Nat) (hpc : s.pc.toNat ≤ 0xFFE)
    (hst : ∀ e ∈ s.stack, e.toNat ≤ 0xFFE) (i : Instr) :
    (withPcBitsBeyond13 s n).completed i = withPcBitsBeyond13 (s.completed i) n := by
  rw [State.completed, State.completed, withPcBitsBeyond13_effect, withPcBitsBeyond13_target]
  cases ht : s.target i with
  | none => rfl
  | some w => exact withPcBitsBeyond13_jump _ n (by have := State.target_le hpc hst ht; omega)

theorem withPcBitsBeyond13_exec {s t : State} (n : Nat) (hpc : s.pc.toNat ≤ 0xFFE) (hst : ∀ e ∈ s.stack, e.toNat ≤ 0xFFE)
    {i : Instr} (h : exec i s = .next t) : exec i (withPcBitsBeyond13 s n) = .next (withPcBitsBeyond13 t n) := by
  cases (exec_eq i s).symm.trans h
  rw [exec_eq, withPcBitsBeyond13_faultOf, withPcBitsBeyond13_completed n hpc hst]
  cases s.faultOf i <;> rfl

theorem withPcBitsBeyond13_step {s t : State} (n : Nat) (hi : s.Inv) (h : step s = .next t) :
    step (withPcBitsBeyond13 s n) = .next (withPcBitsBeyond13 t n) := by
  obtain ⟨hr, hs⟩ | ⟨hr, hpc, hs⟩ | ⟨hr, hpc, hd, hs⟩ | ⟨i, hr, hpc, hd, hs⟩ := step_cases s
  case inr.inr.inr =>
    exact (step_of_decode_some (s := withPcBitsBeyond13 s n) hr hpc hd).trans
      (withPcBitsBeyond13_exec n hpc hi.entries (hs ▸ h))
  all_goals cases hs.symm.trans h
  · exact step_of_halted (s := withPcBitsBeyond13 s n) hr
  · exact step_of_pc_gt (s := withPcBitsBeyond13 s n) hr hpc
  · exact step_of_decode_none (s := withPcBitsBeyond13 s n) hr hpc hd

theorem withPcBitsBeyond13_unlessHalted {s go go' : State} {n : Nat} (h : go' = withPcBitsBeyond13 go n) :
    (withPcBitsBeyond13 s n).unlessHalted go' = withPcBitsBeyond13 (s.unlessHalted go) n := by
  rw [h, State.unlessHalted, State.unlessHalted, apply_ite (withPcBitsBeyond13 · n)]
  rfl

theorem withPcBitsBeyond13_applyEvent {s t : State} (n : Nat) (hi : s.Inv) {e : Event} (h : applyEvent e s = .next t) :
    applyEvent e (withPcBitsBeyond13 s n) = .next (withPcBitsBeyond13 t n) := by
  cases e
  case reset =>
    cases h
    rfl
  case load bytes =>
    simp only [applyEvent] at h ⊢
    split at h <;> cases h
    next hl =>
      rw [if_pos hl]
      exact congrArg Host.Outcome.next (withPcBitsBeyond13_unlessHalted rfl)
  case step => exact withPcBitsBeyond13_step n hi h
  all_goals
    cases h
    exact congrArg Host.Outcome.next (withPcBitsBeyond13_unlessHalted rfl)

/-- Settles O27: event by event, with the invariant kept along the run. -/
theorem everyCounterWidthBehavesAlike : Obligations.EveryCounterWidthBehavesAlike := by
  intro p es
  induction es generalizing p with
  | nil =>
    rintro s t n - h
    cases h
    rfl
  | cons e es ih =>
    intro s t n hi h
    obtain ⟨q, u, hq, he, hrest⟩ := runEvents_cons_eq_next.mp h
    exact runEvents_cons_eq_next.mpr
      ⟨q, _, hq, withPcBitsBeyond13_applyEvent n hi he, ih q u t n (hi.applyEvent he) hrest⟩

end Sys2Proof.Machine
end

section
/-! PROOFS. Control flow (40_control_flow.md): the jumps, the call and its return, and the skips on two registers. -/

namespace Sys2Proof.Machine

/-! ### Jumps -/

theorem exec_jp (nnn : Addr12) (s : State) : exec (.jp nnn) s = .next (s.jump (addressOf nnn)) := rfl

theorem exec_jpV0 (nnn : Addr12) (s : State) : exec (.jpV0 nnn) s = .next (s.jump (offsetTarget nnn (s.reg V0))) := rfl

theorem State.toNat_pc_jump_addressOf (s : State) (nnn : Addr12) : (s.jump (addressOf nnn)).pc.toNat = nnn.toNat := by
  simp

/-- Settles O29: a 12-bit address is held whole, and the fetch at 0xFFF has its second byte out of range. -/
theorem jpSetsTheCounter : Obligations.JpSetsTheCounter := by
  refine fun nnn => ⟨decodeWord_encode (.jp nnn), fun s => ⟨_, exec_jp nnn s, s.toNat_pc_jump_addressOf nnn,
    onlyChanges_jump s _, ?_⟩⟩
  rintro hr rfl
  have hpc := s.toNat_pc_jump_addressOf 0xFFF#12
  refine ⟨_, step_of_pc_gt hr (by rw [hpc]; decide), ?_⟩
  rw [hpc]
  exact faultEntry_raise ..

/-- Settles O32: the exact sum is held at every width, and above 0xFFE the fetch faults. -/
theorem jpV0AddsWithoutMask : Obligations.JpV0AddsWithoutMask := by
  refine fun nnn => ⟨decodeWord_encode (.jpV0 nnn), fun s => ⟨_, exec_jpV0 nnn s, ?sum, onlyChanges_jump s _,
    fun hr hpc => ⟨_, step_of_pc_gt hr hpc, faultEntry_raise ..⟩⟩⟩
  case sum => rw [State.jump_pc, Params.cutPc_offsetTarget, toNat_offsetTarget]

/-! ### Call and return -/

theorem exec_call (nnn : Addr12) (s : State) :
    exec (.call nnn) s = .next (s.callWithin s.params.stackDepth (addressOf nnn)) := rfl

theorem State.callWithin_of_ne {s : State} {depth : Nat} (h : s.sp ≠ depth) (target : Word) :
    s.callWithin depth target = (s.push s.pc).jump target := if_neg h

theorem State.callWithin_of_eq {s : State} {depth : Nat} (h : s.sp = depth) (target : Word) :
    s.callWithin depth target = s.raise .stackOverflow s.pc := if_pos h

theorem onlyChanges_push (s : State) (w : Word) : OnlyChanges [.callStack] s (s.push w) := onlyChanges_setStack s _

/-- Settles O30: by whether the stack is full; a push puts the new entry at index `SP` and keeps the older ones. -/
theorem callPushesItsOwnAddress : Obligations.CallPushesItsOwnAddress := by
  intro nnn s
  refine ⟨fun hsp => ⟨(s.push s.pc).jump (addressOf nnn), ?exec, State.toNat_pc_jump_addressOf _ nnn, rfl, ?new,
    fun j hj => ?older, (onlyChanges_push s _).trans (onlyChanges_jump _ _)⟩, fun hsp => ⟨_, ?full, faultEntry_raise ..⟩⟩
  case exec => rw [exec_call, State.callWithin_of_ne hsp]
  case full => rw [exec_call, State.callWithin_of_eq hsp]
  case new => exact State.stackEntry_newest (s := (s.push s.pc).jump _) rfl
  case older => exact State.stackEntry_older (s := (s.push s.pc).jump _) rfl hj

theorem State.popAndAdvance_of_stack {s : State} {top : Word} {older : List Word} (h : s.stack = top :: older) :
    s.popAndAdvance = (s.setStack older).jump (top + 2#16) := by
  rw [State.popAndAdvance_eq, h]
  rfl

/-- Settles O31: the return pops what the call pushed, its own address. -/
theorem callThenReturnRoundTrips : Obligations.CallThenReturnRoundTrips := by
  refine ⟨fun nnn s u callee _ hcall hu hstack hparams => ?run, fun depth target s hsp => ?depth⟩
  case run =>
    have hpushed : u.stack = s.pc :: s.stack := by
      cases hcall
      obtain ⟨-, h⟩ | ⟨-, h⟩ := s.callWithin_cases s.params.stackDepth (addressOf nnn)
      · rw [h]
        rfl
      · rw [h] at hu
        cases hu
    refine ⟨_, exec_ret callee, ?_⟩
    rw [State.popAndAdvance_of_stack (hstack.trans hpushed)]
    exact ⟨congrArg (fun p : Params => p.cutPc (s.pc + 2#16)) hparams, rfl⟩
  case depth =>
    rw [State.callWithin_of_ne hsp.ne, State.popAndAdvance_of_stack (top := s.pc) (older := s.stack) rfl]
    exact ⟨rfl, rfl⟩

/-! ### The skips on two registers -/

theorem exec_seReg (x y : Reg) (s : State) :
    exec (.seReg x y) s = .next (s.skipIf (decide (s.reg x = s.reg y))) := rfl

theorem exec_sneReg (x y : Reg) (s : State) :
    exec (.sneReg x y) s = .next (s.skipIf (decide (s.reg x ≠ s.reg y))) := rfl

/-- With `hi4` 5 or 9 a word whose low digit is not 0 is illegal (R64). -/
theorem decodeWord_packRegReg_5_9_eq_none {n : Nibble} (x y : Reg) (hn : n ≠ 0) :
    decodeWord (packRegReg 0x5#4 x y n) = none ∧ decodeWord (packRegReg 0x9#4 x y n) = none := by
  simp only [decodeWord, decodeIfLowZero, fieldHi4_packRegReg, fieldN_packRegReg]
  exact ⟨if_neg hn, if_neg hn⟩

/-- Settles O34: both words are conditional skips, on a comparison and on its negation. -/
theorem skipsOnTwoRegisters : Obligations.SkipsOnTwoRegisters := by
  intro x y
  refine ⟨decodeWord_encode (.seReg x y), decodeWord_encode (.sneReg x y),
    fun n hn => decodeWord_packRegReg_5_9_eq_none x y hn, fun s => ?_⟩
  refine ⟨_, _, exec_seReg x y s, exec_sneReg x y s, onlyChanges_skipIf s _, onlyChanges_skipIf s _, ?_, ?_⟩
  · intro heq
    simp [heq]
  · intro hne
    simp [hne]

end Sys2Proof.Machine
end

section
/-! PROOFS. The instructions that write a flag, and the random byte (41_alu.md R126 to R132): one frame for the value and
then the flag, one for the flag and then the value; each instruction adds what it computes. -/

namespace Sys2Proof.Machine

/-! ### A register, then the flag (R126) -/

theorem onlyChanges_setFlag (s : State) (f : Bool) : OnlyChanges [.registers] s (s.setFlag f) := onlyChanges_setReg s VF _

theorem onlyChanges_putRegThenFlag (s : State) (d : Reg) (b : Byte) (f : Bool) :
    OnlyChanges [.registers, .counter] s (s.putRegThenFlag d b f) :=
  (((onlyChanges_setReg s d b).trans (onlyChanges_setFlag _ f)).trans (onlyChanges_advance _)).mono (by simp)

theorem otherRegs_putRegThenFlag (s : State) (d : Reg) (b : Byte) (f : Bool) :
    OtherRegs [d, 15] s (s.putRegThenFlag d b f) := by
  intro k hk
  obtain ⟨hd, hf⟩ : k ≠ d ∧ k ≠ 15 := by simpa using hk
  rw [State.reg_putRegThenFlag, if_neg hf.symm, if_neg hd.symm]

theorem State.reg_VF_putRegThenFlag (s : State) (d : Reg) (b : Byte) (f : Bool) :
    (s.putRegThenFlag d b f).reg 15 = if f then 1#8 else 0#8 := by
  rw [State.reg_putRegThenFlag, if_pos rfl]

theorem State.reg_dest_putRegThenFlag (s : State) {d : Reg} (hd : d ≠ 15) (b : Byte) (f : Bool) :
    (s.putRegThenFlag d b f).reg d = b := by
  rw [State.reg_putRegThenFlag, if_neg hd.symm, if_pos rfl]

/-- A byte difference is the difference modulo 256. -/
theorem toNat_sub_byte (a b : Byte) : ((a - b).toNat : Int) = (a.toNat - b.toNat : Int) % 256 := by
  rw [BitVec.toNat_sub]
  omega

theorem ite_notBorrow (a b : Byte) : (if notBorrow a b then 1#8 else 0#8) = if b.toNat > a.toNat then 0#8 else 1#8 := by
  by_cases h : b.toNat > a.toNat <;> simp [notBorrow, h]

theorem exec_addReg (x y : Reg) (s : State) :
    exec (.addReg x y) s = .next (s.putRegThenFlag x (s.reg x + s.reg y) (carryOut (s.reg x) (s.reg y))) := rfl

theorem exec_sub (x y : Reg) (s : State) :
    exec (.sub x y) s = .next (s.putRegThenFlag x (s.reg x - s.reg y) (notBorrow (s.reg x) (s.reg y))) := rfl

theorem exec_suby (x y : Reg) (s : State) :
    exec (.suby x y) s = .next (s.putRegThenFlag y (s.reg y - s.reg x) (notBorrow (s.reg y) (s.reg x))) := rfl

/-- Settles O37: the sum, then the carry. -/
theorem addSetsSumThenCarry : Obligations.AddSetsSumThenCarry := by
  refine fun x y => ⟨decodeWord_encode (.addReg x y), fun s => ⟨_, exec_addReg x y s, ?flag, fun hx => ?sum,
    otherRegs_putRegThenFlag s x _ _, State.putRegThenFlag_pc .., onlyChanges_putRegThenFlag s x _ _⟩⟩
  case flag => simp [State.reg_VF_putRegThenFlag, carryOut]
  case sum => rw [State.reg_dest_putRegThenFlag s hx, BitVec.toNat_add]

/-- Settles O38: the difference of the originals, then not-borrow. -/
theorem subSetsDifferenceThenNotBorrow : Obligations.SubSetsDifferenceThenNotBorrow := by
  refine fun x y => ⟨decodeWord_encode (.sub x y), fun s => ⟨_, exec_sub x y s, ?flag, fun hx => ?diff,
    otherRegs_putRegThenFlag s x _ _, State.putRegThenFlag_pc .., onlyChanges_putRegThenFlag s x _ _⟩⟩
  case flag => rw [State.reg_VF_putRegThenFlag, ite_notBorrow]
  case diff => rw [State.reg_dest_putRegThenFlag s hx, toNat_sub_byte]

/-- Settles O39: the same with the operands exchanged, into `V[y]`. -/
theorem subyWritesVyThenNotBorrow : Obligations.SubyWritesVyThenNotBorrow := by
  refine fun x y => ⟨decodeWord_encode (.suby x y), fun s => ⟨_, exec_suby x y s, ?flag, fun hy => ?diff,
    otherRegs_putRegThenFlag s y _ _, State.putRegThenFlag_pc .., onlyChanges_putRegThenFlag s y _ _⟩⟩
  case flag => rw [State.reg_VF_putRegThenFlag, ite_notBorrow]
  case diff => rw [State.reg_dest_putRegThenFlag s hy, toNat_sub_byte]

/-! ### The flag, then a register (R129, R131) -/

theorem onlyChanges_setFlag_putReg (s : State) (f : Bool) (x : Reg) (b : Byte) :
    OnlyChanges [.registers, .counter] s ((s.setFlag f).putReg x b) :=
  ((onlyChanges_setFlag s f).trans (onlyChanges_putReg _ x b)).mono (by simp)

theorem otherRegs_setFlag_putReg (s : State) (f : Bool) (x : Reg) (b : Byte) :
    OtherRegs [x, 15] s ((s.setFlag f).putReg x b) := by
  intro k hk
  obtain ⟨hx, hf⟩ : k ≠ x ∧ k ≠ 15 := by simpa using hk
  rw [State.reg_putReg, if_neg hx.symm, State.reg_setFlag, if_neg hf.symm]

theorem State.reg_VF_setFlag (s : State) (f : Bool) : (s.setFlag f).reg 15 = if f then 1#8 else 0#8 := by
  rw [State.reg_setFlag, if_pos rfl]

theorem State.reg_setFlag_of_ne (s : State) (f : Bool) {k : Reg} (hk : k ≠ 15) : (s.setFlag f).reg k = s.reg k := by
  rw [State.reg_setFlag, if_neg hk.symm]

/-- Where the register written last is not `VF`, the flag stands. -/
theorem State.reg_VF_setFlag_putReg (s : State) (f : Bool) {x : Reg} (hx : x ≠ 15) (b : Byte) :
    ((s.setFlag f).putReg x b).reg 15 = if f then 1#8 else 0#8 := by
  rw [State.reg_putReg, if_neg hx, State.reg_VF_setFlag]

theorem toNat_ite_bitZero (b : Byte) : (if bitZero b then 1#8 else 0#8).toNat = b.toNat % 2 := by
  rw [bitZero, BitVec.getLsbD, Nat.testBit_zero]
  obtain h | h := Nat.mod_two_eq_zero_or_one b.toNat <;> simp [h]

theorem bitSeven_eq (b : Byte) : bitSeven b = decide (b.toNat ≥ 0x80) := by
  rw [bitSeven, BitVec.getLsbD, Nat.testBit_eq_decide_div_mod_eq]
  have := b.isLt
  exact decide_eq_decide.mpr (by omega)

theorem toNat_ite_bitSeven (b : Byte) : (if bitSeven b then 1#8 else 0#8).toNat = b.toNat / 128 := by
  have := b.isLt
  rw [bitSeven_eq]
  by_cases h : b.toNat ≥ 0x80 <;> simp [h] <;> omega

theorem toNat_ushiftRight_one (b : Byte) : (b >>> 1).toNat = b.toNat / 2 := by
  rw [BitVec.toNat_ushiftRight, Nat.shiftRight_one]

theorem toNat_shiftLeft_one (b : Byte) : (b <<< 1).toNat = b.toNat * 2 % 256 := by
  rw [BitVec.toNat_shiftLeft, Nat.shiftLeft_eq]

theorem ite_flag_ushiftRight_one (f : Bool) : (if f then 1#8 else 0#8) >>> 1 = 0#8 := by
  cases f <;> rfl

theorem ite_flag_shiftLeft_one (f : Bool) : (if f then 1#8 else 0#8) <<< 1 = if f then 2#8 else 0#8 := by
  cases f <;> rfl

theorem exec_shr (x y : Reg) (s : State) : exec (.shr x y) s =
    .next ((s.setFlag (bitZero (s.reg x))).putReg x ((s.setFlag (bitZero (s.reg x))).reg y >>> 1)) := rfl

theorem exec_shl (x y : Reg) (s : State) : exec (.shl x y) s =
    .next ((s.setFlag (bitSeven (s.reg x))).putReg x ((s.setFlag (bitSeven (s.reg x))).reg x <<< 1)) := rfl

/-- Settles O40: by which operands are 15: the last write wins at `VF`, and as `V[y]` the flag is what is shifted. -/
theorem shrTakesFlagFromVxAndValueFromVy : Obligations.ShrTakesFlagFromVxAndValueFromVy := by
  intro x y s
  refine ⟨_, exec_shr x y s, fun hx hy => ⟨?_, ?_⟩, ?_, ?_, ?_, otherRegs_setFlag_putReg s _ x _, State.putReg_pc ..,
    onlyChanges_setFlag_putReg s _ x _⟩
  · rw [State.reg_VF_setFlag_putReg s _ hx, toNat_ite_bitZero]
  · rw [State.reg_putReg_same, State.reg_setFlag_of_ne s _ hy, toNat_ushiftRight_one]
  · rintro rfl hy
    rw [State.reg_putReg_same, State.reg_setFlag_of_ne s _ hy, toNat_ushiftRight_one]
  · rintro rfl hx
    rw [State.reg_VF_setFlag_putReg s _ hx, toNat_ite_bitZero, State.reg_putReg_same, State.reg_VF_setFlag,
      ite_flag_ushiftRight_one]
    exact ⟨rfl, rfl⟩
  · rintro rfl rfl
    rw [State.reg_putReg_same, State.reg_VF_setFlag, ite_flag_ushiftRight_one]

/-- Settles O41: with `x` 15 the flag itself is shifted. -/
theorem shlIgnoresVy : Obligations.ShlIgnoresVy := by
  intro x y s
  refine ⟨_, exec_shl x y s, fun hx => ⟨?_, ?_⟩, ?_, otherRegs_setFlag_putReg s _ x _, State.putReg_pc ..,
    onlyChanges_setFlag_putReg s _ x _⟩
  · rw [State.reg_VF_setFlag_putReg s _ hx, toNat_ite_bitSeven]
  · rw [State.reg_putReg_same, State.reg_setFlag_of_ne s _ hx, toNat_shiftLeft_one]
  · rintro rfl
    rw [State.reg_putReg_same, State.reg_VF_setFlag, ite_flag_shiftLeft_one, bitSeven_eq]
    simp

/-! ### The random byte (R132) -/

theorem exec_rnd (x : Reg) (nn : Byte) (s : State) : exec (.rnd x nn) s = .next (s.putRandom s.rndByte x nn) := rfl

theorem onlyChanges_drawn (s : State) : OnlyChanges [.draws] s s.drawn := by
  intro p hp
  cases p
  case draws => exact absurd (List.mem_singleton_self _) hp
  all_goals simp [samePart]

theorem onlyChanges_putRandom (s : State) (r : Byte) (x : Reg) (nn : Byte) :
    OnlyChanges [.registers, .counter, .draws] s (s.putRandom r x nn) :=
  ((onlyChanges_drawn s).trans (onlyChanges_putReg _ x _)).mono (by simp)

/-- Settles O42: a byte under a mask is at most the mask. -/
theorem rndMasksAFreeByte : Obligations.RndMasksAFreeByte := by
  intro x nn s
  have hreg : (s.putRandom s.rndByte x nn).reg x = Config.rnd s.draws &&& nn := State.reg_putReg_same ..
  refine ⟨_, exec_rnd x nn s, hreg, ?zero, ?le, rfl, otherRegs_putReg s.drawn x _, State.putRandom_pc ..,
    onlyChanges_putRandom s _ x nn⟩
  case zero =>
    rintro rfl
    rw [hreg, BitVec.and_zero]
  case le =>
    rw [hreg, BitVec.toNat_and]
    exact Nat.and_le_right

end Sys2Proof.Machine
end

section
/-! PROOFS. The address register and memory transfer (42_index_memory.md R141 to R146): each transfer is one checked
access, in range or the entry of the bounds fault; and the next fetch sees what was stored (20_memory.md section 8). -/

namespace Sys2Proof.Machine

/-! ### The sum into `I` (R141) -/

theorem exec_addI (x : Reg) (s : State) : exec (.addI x) s = .next (s.setI (s.i + widen (s.reg x))).advance := rfl

/-- Settles O44: a 16-bit sum wraps modulo 2^16. -/
theorem addIWrapsAtSixteenBits : Obligations.AddIWrapsAtSixteenBits := by
  refine fun x s => ⟨_, exec_addI x s, ?sum, State.advance_pc _, onlyChanges_setI_advance s _⟩
  case sum => rw [State.advance_i, State.setI_i, BitVec.toNat_add, toNat_widen]

/-! ### The checked access (20_memory.md R43) -/

/-- An access with a byte above 0xFFF is the entry of the bounds fault, whatever would follow. -/
theorem faultEntry_withBytes {s : State} {base count : Nat} (h1 : count ≥ 1) (h : base + count > 0x1000) (go : State) :
    FaultEntry .memoryBoundsFault (BitVec.ofNat 16 (max base 0x1000)) s (s.withBytes base count go) := by
  rw [State.withBytes_of_gt h1 h]
  exact faultEntry_raise ..

theorem exec_ldB (x : Reg) (s : State) : exec (.ldB x) s =
    .next (s.withBytes s.indexAddress 3 (s.storeBytes s.indexAddress (bcdDigits (s.reg x))).advance) := rfl

theorem exec_ldMemVx (x : Reg) (s : State) : exec (.ldMemVx x) s =
    .next (s.withBytes s.indexAddress (regCount x)
      ((s.storeBytes s.indexAddress (s.regsUpTo x)).bumpIndex x).advance) := rfl

theorem exec_ldVxMem (x : Reg) (s : State) : exec (.ldVxMem x) s =
    .next (s.withBytes s.indexAddress (regCount x) ((s.loadRegs x s.indexAddress).bumpIndex x).advance) := rfl

theorem exec_ldB_of_le (x : Reg) {s : State} (h : s.i.toNat + 2 ≤ 0xFFF) :
    exec (.ldB x) s = .next (s.storeBytes s.indexAddress (bcdDigits (s.reg x))).advance := by
  rw [exec_ldB, State.withBytes_of_le (.inr (by rw [State.indexAddress]; omega))]

theorem exec_ldMemVx_of_le {x : Reg} {s : State} (h : s.i.toNat + x.val ≤ 0xFFF) :
    exec (.ldMemVx x) s = .next ((s.storeBytes s.indexAddress (s.regsUpTo x)).bumpIndex x).advance := by
  rw [exec_ldMemVx, State.withBytes_of_le (.inr (by rw [State.indexAddress, regCount]; omega))]

theorem exec_ldVxMem_of_le {x : Reg} {s : State} (h : s.i.toNat + x.val ≤ 0xFFF) :
    exec (.ldVxMem x) s = .next ((s.loadRegs x s.indexAddress).bumpIndex x).advance := by
  rw [exec_ldVxMem, State.withBytes_of_le (.inr (by rw [State.indexAddress, regCount]; omega))]

/-! ### The decimal digits (R143) -/

theorem onlyChanges_storeBytes_advance (s : State) (base : Nat) (bytes : List Byte) :
    OnlyChanges [.memory, .counter] s (s.storeBytes base bytes).advance :=
  (onlyChanges_storeBytes s base bytes).trans (onlyChanges_advance _)

theorem toNat_ofNat_byte {n : Nat} (h : n < 256) : (BitVec.ofNat 8 n).toNat = n := by
  rw [BitVec.toNat_ofNat, Nat.mod_eq_of_lt h]

/-- Settles O45: three bytes stored, each digit below 256. -/
theorem bcdStoresThreeDigits : Obligations.BcdStoresThreeDigits := by
  intro x s hm
  refine ⟨fun h => ?store, fun h => ⟨_, exec_ldB x s, faultEntry_withBytes (by decide) (by omega) _⟩⟩
  case store =>
    have hv := (s.reg x).isLt
    have hb : s.indexAddress + (bcdDigits (s.reg x)).length ≤ Config.memSize := by
      rw [length_bcdDigits, State.indexAddress, Config.memSize]
      omega
    refine ⟨_, exec_ldB_of_le x h, ?_, ?_, ?_, otherBytes_storeBytes hm hb, State.advance_pc _,
      onlyChanges_storeBytes_advance s _ _⟩
    · exact (congrArg _ (State.readByte_storeBytes_add (j := 0) hm hb (by simp))).trans (toNat_ofNat_byte (by omega))
    · exact (congrArg _ (State.readByte_storeBytes_add (j := 1) hm hb (by simp))).trans (toNat_ofNat_byte (by omega))
    · exact (congrArg _ (State.readByte_storeBytes_add (j := 2) hm hb (by simp))).trans (toNat_ofNat_byte (by omega))

/-! ### The registers, stored and loaded (R144, R145) -/

theorem onlyChanges_bumpIndex (s : State) (x : Reg) : OnlyChanges [.index] s (s.bumpIndex x) := onlyChanges_setI s _

theorem onlyChanges_loadRegs (s : State) (x : Reg) (base : Nat) : OnlyChanges [.registers] s (s.loadRegs x base) := by
  intro p hp
  cases p
  case registers => exact absurd (List.mem_singleton_self _) hp
  all_goals simp [samePart]

/-- With the last byte in range `I + x + 1` does not wrap. -/
theorem toNat_add_regCount {w : Word} {x : Reg} (h : w.toNat + x.val ≤ 0xFFF) :
    (w + BitVec.ofNat 16 (regCount x)).toNat = w.toNat + x.val + 1 := by
  rw [BitVec.toNat_add, BitVec.toNat_ofNat, regCount]
  omega

theorem State.storeRegs_in_range {s : State} {x : Reg} (h : s.i.toNat + x.val ≤ 0xFFF) :
    s.indexAddress + (s.regsUpTo x).length ≤ Config.memSize := by
  rw [State.length_regsUpTo, State.indexAddress, regCount, Config.memSize]
  omega

/-- Settles O46: one store of the registers in order, then the sum into `I`. -/
theorem storeRegistersThenAdvanceI : Obligations.StoreRegistersThenAdvanceI := by
  intro x s hm
  refine ⟨fun h => ?store, fun h => ⟨_, exec_ldMemVx x s,
    faultEntry_withBytes (Nat.le_add_left 1 _) (by omega) _⟩⟩
  case store =>
    have hb := State.storeRegs_in_range h
    refine ⟨_, exec_ldMemVx_of_le h, fun j hj => ?_, ?others, toNat_add_regCount h, State.advance_pc _,
      ((onlyChanges_storeBytes s _ _).trans (onlyChanges_bumpIndex _ x)).trans (onlyChanges_advance _)⟩
    case others =>
      have hothers := otherBytes_storeBytes hm hb
      rwa [State.length_regsUpTo] at hothers
    have hj' : j.val < (s.regsUpTo x).length := by
      rw [State.length_regsUpTo]
      exact Nat.lt_succ_of_le hj
    exact (State.readByte_storeBytes_add hm hb hj').trans (s.getElem_regsUpTo x _ hj')

/-- Settles O47: each register up to `x` is loaded, then the sum into `I`. -/
theorem loadRegistersThenAdvanceI : Obligations.LoadRegistersThenAdvanceI := by
  intro x s
  refine ⟨fun h => ⟨_, exec_ldVxMem_of_le h, fun j hj => ?_, fun j hj => ?_, ?_, ?_,
      ((onlyChanges_loadRegs s x _).trans (onlyChanges_bumpIndex _ x)).trans (onlyChanges_advance _)⟩,
    fun h => ⟨_, exec_ldVxMem x s,
      faultEntry_withBytes (Nat.le_add_left 1 _) (by omega) _⟩⟩
  · rw [State.advance_reg, State.bumpIndex_reg, State.reg_loadRegs, if_pos hj, State.indexAddress]
  · rw [State.advance_reg, State.bumpIndex_reg, State.reg_loadRegs, if_neg (not_le_of_gt hj)]
  · rw [State.advance_i, State.bumpIndex_i, State.loadRegs_i, toNat_add_regCount h]
  · rw [State.advance_pc, State.bumpIndex_pcPlus, State.loadRegs_pcPlus]

/-! ### The next fetch (20_memory.md section 8) -/

/-- What reads after a store from `I` on, byte `j` of it `stored j`. -/
theorem State.readByte_storeBytes_eq_overlaid {s : State} (hm : s.memWf = true) {bytes : List Byte}
    (hb : s.indexAddress + bytes.length ≤ Config.memSize) {stored : Nat → Byte}
    (hs : ∀ (j : Nat) (h : j < bytes.length), bytes[j] = stored j) (a : Nat) :
    (s.storeBytes s.indexAddress bytes).readByte a = overlaid s bytes.length stored a := by
  rw [State.readByte_storeBytes hm hb, overlaid, ← State.indexAddress]
  by_cases ha : s.indexAddress ≤ a ∧ a < s.indexAddress + bytes.length
  · rw [dif_pos ha, if_pos ha, hs]
  · rw [dif_neg ha, if_neg ha]

/-- A running state at the next instruction fetches the bytes it reads, and its step runs what they decode to. -/
theorem fetchSees_of_readByte {s t : State} {byteAt : Nat → Byte} (hr : t.running) (hpc : t.pc = s.pcPlus 2#16)
    (hread : ∀ a, t.readByte a = byteAt a) : fetchSees s t byteAt := by
  have hword : t.fetchWord = byteAt t.pc.toNat ++ byteAt (t.pc.toNat + 1) := by
    rw [State.fetchWord, State.wordAt, wordOfBytes, hread, hread]
  exact ⟨hpc, hword, fun i hle hd => step_of_decode_some hr hle (hword ▸ hd)⟩

/-- Settles O24: each store leaves every byte as the overlay says, and the state running at the next instruction. -/
theorem nextFetchSeesTheStore : Obligations.NextFetchSeesTheStore := by
  intro x s t hm hr
  refine ⟨fun h he => ?regs, fun h he => ?digits⟩
  case regs =>
    cases (exec_ldMemVx_of_le h).symm.trans he
    have hb := State.storeRegs_in_range h
    refine fetchSees_of_readByte hr rfl fun a => ?_
    rw [State.advance_readByte, State.bumpIndex_readByte, State.readByte_storeBytes_eq_overlaid hm hb fun j hj => ?_,
      State.length_regsUpTo, regCount]
    rw [s.getElem_regsUpTo x j hj]
    rw [State.length_regsUpTo, regCount] at hj
    exact congrArg s.reg (Fin.ext (Nat.mod_eq_of_lt (by omega)).symm)
  case digits =>
    cases (exec_ldB_of_le x h).symm.trans he
    have hb : s.indexAddress + (bcdDigits (s.reg x)).length ≤ Config.memSize := by
      rw [length_bcdDigits, State.indexAddress, Config.memSize]
      omega
    refine fetchSees_of_readByte hr rfl (State.readByte_storeBytes_eq_overlaid hm hb fun j hj => ?_)
    rw [length_bcdDigits] at hj
    interval_cases j <;> rfl

end Sys2Proof.Machine
end

section
/-! PROOFS. The keypad (44_timers_input.md R163 to R165): the key skips by the cases of the key test, the wait by the scan. -/

namespace Sys2Proof.Machine

theorem exec_skp (x : Reg) (s : State) : exec (.skp x) s = .next (s.testKey x fun down => s.skipIf down) := rfl

theorem exec_sknp (x : Reg) (s : State) : exec (.sknp x) s = .next (s.testKey x fun down => s.skipIf (!down)) := rfl

theorem State.testKey_of_key {s : State} {x : Reg} {k : Key} (h : (s.reg x).toNat = k.val) (go : Bool → State) :
    s.testKey x go = go (s.keyIsDown k) := by
  obtain ⟨hlt, he⟩ | ⟨hge, -⟩ := s.testKey_cases x go
  · rw [he]
    exact congrArg (fun j => go (s.keyIsDown j)) (Fin.ext h)
  · omega

theorem State.testKey_of_gt {s : State} {x : Reg} (h : (s.reg x).toNat > 15) (go : Bool → State) :
    s.testKey x go = s.raise .keyIndexFault (widen (s.reg x)) := by
  obtain ⟨hlt, -⟩ | ⟨-, he⟩ := s.testKey_cases x go
  · omega
  · exact he

/-- Settles O53: with a key named both are conditional skips, on its level and on the contrary; else both fault. -/
theorem keySkipsTestTheNamedKey : Obligations.KeySkipsTestTheNamedKey := by
  intro x s
  refine ⟨fun k hk => ?key, fun hx => ?fault⟩
  case key =>
    refine ⟨_, _, exec_skp x s, exec_sknp x s, ?_⟩
    rw [State.testKey_of_key hk, State.testKey_of_key hk]
    refine ⟨fun hd => ?_, fun hd => ?_, onlyChanges_skipIf s _, onlyChanges_skipIf s _⟩
    · simp [hd]
    · simp [hd]
  case fault =>
    refine ⟨_, _, exec_skp x s, exec_sknp x s, widen (s.reg x), toNat_widen _, ?_⟩
    rw [State.testKey_of_gt hx, State.testKey_of_gt hx]
    exact ⟨faultEntry_raise .., faultEntry_raise ..⟩

theorem exec_ldVxK_of_some {s : State} {k : Key} (x : Reg) (h : s.lowestKey = some k) :
    exec (.ldVxK x) s = .next (s.putReg x (BitVec.ofNat 8 k.val)) := by
  rw [exec, execLdVxK, h]
  rfl

theorem exec_ldVxK_of_none {s : State} (x : Reg) (h : s.lowestKey = none) : exec (.ldVxK x) s = .next s := by
  rw [exec, execLdVxK, h]

/-- Settles O54: by what the scan finds. -/
theorem waitTakesTheLowestKeyDown : Obligations.WaitTakesTheLowestKeyDown := by
  intro x s
  refine ⟨fun k hk hlow => ⟨_, exec_ldVxK_of_some x (State.lowestKey_eq_some.mpr ⟨hk, hlow⟩), ?val, otherRegs_putReg s x _,
    State.putReg_pc .., onlyChanges_putReg s x _⟩, fun hup => exec_ldVxK_of_none x (State.lowestKey_eq_none.mpr hup)⟩
  case val => rw [State.reg_putReg_same, toNat_ofNat_byte (by omega)]

end Sys2Proof.Machine
end

section
/-! PROOFS. The draw (43_display.md R151, R152): the pixel loop as a closed form. Each pixel, row and sprite inverts a set of
cells and finds the set ones among them; sets drawn one after the other are disjoint, because eight columns and at most
fifteen rows do not wrap onto themselves. -/

namespace Sys2Proof.Machine

/-! ### Inverting a set of cells -/

/-- From the display and collision `d` to `d'`: the cells of a set are inverted and no other, and the collision is raised
when one of them was set. -/
structure Inverts (cells : Fin 32 → Fin 64 → Prop) (d d' : Screen × Bool) : Prop where
  inside : ∀ r c, cells r c → d'.1.cell r c = !d.1.cell r c
  outside : ∀ r c, ¬ cells r c → d'.1.cell r c = d.1.cell r c
  hit : d'.2 = true ↔ d.2 = true ∨ ∃ r c, cells r c ∧ d.1.cell r c = true

theorem Inverts.congr {A B : Fin 32 → Fin 64 → Prop} {d d' : Screen × Bool} (h : Inverts A d d')
    (hAB : ∀ r c, A r c ↔ B r c) : Inverts B d d' :=
  (funext fun r => funext fun c => propext (hAB r c) : A = B) ▸ h

theorem Inverts.refl_of_empty {A : Fin 32 → Fin 64 → Prop} (hA : ∀ r c, ¬ A r c) (d : Screen × Bool) : Inverts A d d where
  inside r c h := absurd h (hA r c)
  outside _ _ _ := rfl
  hit := ⟨.inl, fun h => h.resolve_right fun ⟨r, c, hrc, _⟩ => hA r c hrc⟩

/-- Two disjoint sets one after the other are their union: the second finds its cells as they were at first. -/
theorem Inverts.trans {A B : Fin 32 → Fin 64 → Prop} {d e f : Screen × Bool} (hA : Inverts A d e) (hB : Inverts B e f)
    (hAB : ∀ r c, A r c → ¬ B r c) : Inverts (fun r c => A r c ∨ B r c) d f where
  inside r c h := by
    obtain ha | hb := h
    · rw [hB.outside r c (hAB r c ha), hA.inside r c ha]
    · rw [hB.inside r c hb, hA.outside r c fun ha => hAB r c ha hb]
  outside r c h := by
    rw [hB.outside r c fun hb => h (.inr hb), hA.outside r c fun ha => h (.inl ha)]
  hit := by
    have hsame : ∀ r c, B r c → e.1.cell r c = d.1.cell r c := fun r c hb => hA.outside r c fun ha => hAB r c ha hb
    rw [hB.hit, hA.hit, or_assoc]
    refine or_congr_right ⟨?_, ?_⟩
    · rintro (⟨r, c, ha, hc⟩ | ⟨r, c, hb, hc⟩)
      · exact ⟨r, c, .inl ha, hc⟩
      · exact ⟨r, c, .inr hb, hsame r c hb ▸ hc⟩
    · rintro ⟨r, c, ha | hb, hc⟩
      · exact .inl ⟨r, c, ha, hc⟩
      · exact .inr ⟨r, c, hb, (hsame r c hb).trans hc⟩

/-! ### Cells and distances from the origin (R152) -/

/-- A row of the display is reached from the origin by one distance below 32. -/
theorem eq_wrapRow_iff {r : Fin 32} {cy j : Nat} (hcy : cy < 32) (hj : j < 32) :
    r = wrapRow (cy + j) ↔ j = (r.val + 32 - cy) % 32 := by
  rw [wrapRow, Fin.ext_iff]
  have := r.isLt
  simp only
  omega

/-- A column of the display is reached from the origin by one distance below 64. -/
theorem eq_wrapCol_iff {c : Fin 64} {cx k : Nat} (hcx : cx < 64) (hk : k < 64) :
    c = wrapCol (cx + k) ↔ k = (c.val + 64 - cx) % 64 := by
  rw [wrapCol, Fin.ext_iff]
  have := c.isLt
  simp only
  omega

/-! ### The loops -/

/-- The cells that the columns below `m` of sprite row `j`, whose byte is `b`, cover with a 1. -/
def RowCovers (cx cy j : Nat) (b : Byte) (m : Nat) (r : Fin 32) (c : Fin 64) : Prop :=
  j = (r.val + 32 - cy) % 32 ∧ (c.val + 64 - cx) % 64 < m ∧ spritePixel b ((c.val + 64 - cx) % 64) = true

/-- The cells that the bytes `bs`, sprite row `j` first, cover with a 1. -/
def RowsCover (cx cy j : Nat) (bs : List Byte) (r : Fin 32) (c : Fin 64) : Prop :=
  ∃ (i : Nat) (h : i < bs.length), RowCovers cx cy (j + i) bs[i] 8 r c

section
variable {cx cy : Nat} (hcx : cx < 64) (hcy : cy < 32)
include hcx hcy

/-- One pixel inverts its cell if its bit is 1. -/
theorem drawPixel_inverts {j : Nat} (hj : j < 32) (b : Byte) (d : Screen × Bool) {k : Nat} (hk : k < 64) :
    Inverts (fun r c => j = (r.val + 32 - cy) % 32 ∧ k = (c.val + 64 - cx) % 64 ∧ spritePixel b k = true) d
      (drawPixel cx cy j b d k) := by
  simp only [← eq_wrapRow_iff hcy hj, ← eq_wrapCol_iff hcx hk]
  rw [drawPixel]
  by_cases hb : spritePixel b k = true
  · rw [if_pos hb]
    constructor
    · rintro r c ⟨rfl, rfl, -⟩
      rw [Screen.cell_toggle, if_pos ⟨rfl, rfl⟩]
    · intro r c h
      rw [Screen.cell_toggle, if_neg fun ⟨hr, hc⟩ => h ⟨hr.symm, hc.symm, hb⟩]
    · simp [hb]
  · rw [if_neg hb]
    exact Inverts.refl_of_empty (fun _ _ h => hb h.2.2) d

theorem foldl_drawPixel_inverts {j : Nat} (hj : j < 32) (b : Byte) (d : Screen × Bool) {m : Nat} (hm : m ≤ 8) :
    Inverts (RowCovers cx cy j b m) d ((List.range m).foldl (drawPixel cx cy j b) d) := by
  induction m with
  | zero => exact Inverts.refl_of_empty (fun _ _ h => absurd h.2.1 (Nat.not_lt_zero _)) d
  | succ m ih =>
    rw [List.range_succ, List.foldl_append]
    refine ((ih (by omega)).trans (drawPixel_inverts hcx hcy hj b _ (k := m) (by omega)) ?_).congr fun r c => ?_
    · rintro r c ⟨-, hlt, -⟩ ⟨-, heq, -⟩
      omega
    · rw [RowCovers, RowCovers, Nat.lt_succ_iff_lt_or_eq]
      constructor
      · rintro (⟨hr, hlt, hb⟩ | ⟨hr, rfl, hb⟩)
        · exact ⟨hr, .inl hlt, hb⟩
        · exact ⟨hr, .inr rfl, hb⟩
      · rintro ⟨hr, hlt | heq, hb⟩
        · exact .inl ⟨hr, hlt, hb⟩
        · exact .inr ⟨hr, heq.symm, heq ▸ hb⟩

theorem drawRow_inverts {j : Nat} (hj : j < 32) (b : Byte) (d : Screen × Bool) :
    Inverts (RowCovers cx cy j b 8) d (drawRow cx cy j b d) := foldl_drawPixel_inverts hcx hcy hj b d le_rfl

theorem drawRows_inverts (bs : List Byte) {j : Nat} (hj : j + bs.length ≤ 32) (d : Screen × Bool) :
    Inverts (RowsCover cx cy j bs) d (drawRows cx cy j bs d) := by
  induction bs generalizing j d with
  | nil => exact Inverts.refl_of_empty (fun _ _ ⟨_, h, _⟩ => absurd h (Nat.not_lt_zero _)) d
  | cons b bs ih =>
    rw [List.length_cons] at hj
    refine ((drawRow_inverts hcx hcy (by omega) b d).trans (ih (j := j + 1) (by omega) _) ?_).congr fun r c => ?_
    · rintro r c ⟨hr, -, -⟩ ⟨i, hi, hr', -⟩
      omega
    · constructor
      · rintro (hb | ⟨i, hi, hb⟩)
        · exact ⟨0, by simp, hb⟩
        · exact ⟨i + 1, by simpa using hi, by simpa [Nat.add_right_comm, Nat.add_assoc] using hb⟩
      · rintro ⟨i, hi, hb⟩
        cases i with
        | zero => exact .inl hb
        | succ i => exact .inr ⟨i, by simpa using hi, by simpa [Nat.add_right_comm, Nat.add_assoc] using hb⟩

end

/-! ### The instruction -/

/-- The cells of the loop are those of the closed form: a row's distance from the origin picks its byte. -/
theorem rowsCover_iff_spriteCovers (s : State) (x y : Reg) (n : Nibble) (r : Fin 32) (c : Fin 64) :
    RowsCover (originCol (s.reg x)) (originRow (s.reg y)) 0 (s.readBytes s.indexAddress n.toNat) r c ↔
      spriteCovers s x y n r c := by
  constructor
  · rintro ⟨i, hi, hr, hlt, hb⟩
    rw [State.length_readBytes] at hi
    rw [State.getElem_readBytes] at hb
    rw [Nat.zero_add] at hr
    subst hr
    exact ⟨hi, hlt, hb⟩
  · rintro ⟨hdown, hright, hb⟩
    refine ⟨_, by rwa [State.length_readBytes], Nat.zero_add _, hright, ?_⟩
    rw [State.getElem_readBytes]
    exact hb

theorem drawing_inverts (s : State) (x y : Reg) (n : Nibble) :
    Inverts (spriteCovers s x y n) (s.fb, false) (s.drawing x y n) := by
  refine (drawRows_inverts (Nat.mod_lt _ (by decide)) (Nat.mod_lt _ (by decide)) _ ?_ _).congr
    (rowsCover_iff_spriteCovers s x y n)
  rw [State.length_readBytes]
  omega

theorem exec_drw (x y : Reg) (n : Nibble) (s : State) : exec (.drw x y n) s =
    .next (s.withBytes s.indexAddress n.toNat
      (s.drawAt (originCol (s.reg x)) (originRow (s.reg y)) (s.readBytes s.indexAddress n.toNat))) := rfl

theorem onlyChanges_drawAt (s : State) (cx cy : Nat) (bs : List Byte) :
    OnlyChanges [.registers, .display, .counter] s (s.drawAt cx cy bs) :=
  (((onlyChanges_setScreen s _).trans (onlyChanges_setFlag _ _)).trans (onlyChanges_advance _)).mono (by simp)

theorem otherRegs_drawAt (s : State) (cx cy : Nat) (bs : List Byte) : OtherRegs [15] s (s.drawAt cx cy bs) := by
  intro k hk
  rw [State.reg_drawAt, if_neg (List.ne_of_not_mem_cons hk).symm]

/-- With the sprite's bytes in range, or no byte at all, the draw is made (R43). -/
theorem exec_drw_of_le {n : Nibble} {s : State} (x y : Reg) (h : n = 0 ∨ s.i.toNat + n.toNat ≤ 0x1000) :
    exec (.drw x y n) s =
      .next (s.drawAt (originCol (s.reg x)) (originRow (s.reg y)) (s.readBytes s.indexAddress n.toNat)) := by
  have hin : n.toNat = 0 ∨ s.indexAddress + n.toNat ≤ 0x1000 := h.imp_left fun hn => congrArg BitVec.toNat hn
  rw [exec_drw, State.withBytes_of_le hin]

/-- The flag after a draw is its collision. -/
theorem State.reg_VF_drawAt (s : State) (x y : Reg) (n : Nibble) :
    (s.drawAt (originCol (s.reg x)) (originRow (s.reg y)) (s.readBytes s.indexAddress n.toNat)).reg 15 =
      if (s.drawing x y n).2 then 1#8 else 0#8 := by
  rw [State.reg_drawAt, if_pos rfl]
  rfl

/-- Settles O49: the draw is the closed form of its loop, and the flag its collision. -/
theorem drawInvertsExactlyTheCoveredCells : Obligations.DrawInvertsExactlyTheCoveredCells := by
  intro x y n s h
  have hdraw := drawing_inverts s x y n
  refine ⟨_, exec_drw_of_le x y h, hdraw.inside, hdraw.outside, fun hset => ?hit, fun hset => ?miss,
    otherRegs_drawAt s _ _ _, State.drawAt_pc .., onlyChanges_drawAt s _ _ _⟩
  case hit => rw [State.reg_VF_drawAt, if_pos (hdraw.hit.mpr (.inr hset))]
  case miss =>
    have hno : (s.drawing x y n).2 ≠ true := fun hhit => (hdraw.hit.mp hhit).elim (by simp) hset
    rw [State.reg_VF_drawAt, if_neg hno]

/-- Settles O50: the check comes before the first pixel. -/
theorem drawOutsideMemoryFaults : Obligations.DrawOutsideMemoryFaults := by
  intro x y n s hn h
  have hpos : n.toNat ≥ 1 := Nat.one_le_iff_ne_zero.mpr fun h0 => hn (BitVec.eq_of_toNat_eq h0)
  exact ⟨_, exec_drw x y n s, faultEntry_withBytes hpos h _⟩

/-- What a sprite covers depends on memory, `I` and the two registers of its origin alone. -/
theorem spriteCovers_congr {s t : State} {x y : Reg} {n : Nibble} (hx : t.reg x = s.reg x) (hy : t.reg y = s.reg y)
    (hi : t.i = s.i) (hm : ∀ a, t.readByte a = s.readByte a) (r : Fin 32) (c : Fin 64) :
    spriteCovers t x y n r c ↔ spriteCovers s x y n r c := by
  rw [spriteCovers, spriteCovers, hx, hy, hi]
  simp only [hm]

/-- Settles O51: the first draw leaves the sprite's place as it was, so the second inverts the same cells back. -/
theorem drawingTwiceRestoresTheDisplay : Obligations.DrawingTwiceRestoresTheDisplay := by
  intro x y n s t u hx hy h ht hu
  obtain ⟨t', ht', hin, hout, -, hmiss, hregs, -, honly⟩ := drawInvertsExactlyTheCoveredCells x y n s h
  cases ht.symm.trans ht'
  have hi : t.i = s.i := honly .index (by simp)
  have hcov := spriteCovers_congr (n := n) (hregs x (by simpa using hx)) (hregs y (by simpa using hy)) hi
    (honly .memory (by simp))
  obtain ⟨u', hu', hin', hout', hhit', -⟩ := drawInvertsExactlyTheCoveredCells x y n t (hi ▸ h)
  cases hu.symm.trans hu'
  refine ⟨Screen.ext_cell fun r c => ?_, fun hclear hsome => ⟨hmiss ?_, hhit' ?_⟩⟩
  · by_cases hrc : spriteCovers s x y n r c
    · rw [hin' r c ((hcov r c).mpr hrc), hin r c hrc, Bool.not_not]
    · rw [hout' r c fun hrc' => hrc ((hcov r c).mp hrc'), hout r c hrc]
  · rintro ⟨r, c, hrc, hset⟩
    rw [hclear r c hrc] at hset
    cases hset
  · obtain ⟨r, c, hrc⟩ := hsome
    exact ⟨r, c, (hcov r c).mpr hrc, by rw [hin r c hrc, hclear r c hrc]; rfl⟩

end Sys2Proof.Machine
end
